-- ==== Sys2Proof/Word.lean ====
section
/-! DEFINITION. The two widths of the machine (spec/00_scope.md R7, R8): a byte is 8 bits, a word 16. All
values are unsigned (R8, decision D3); the ISA has no sign extension. -/

namespace Sys2Proof

/-- A byte: the value of one memory cell (R7, R32). -/
abbrev Byte := BitVec 8

/-- A word: X, Y, `pointer`, `target_pointer`, an addr16 and an imm16 (R7, R21, R24, R83). -/
abbrev Word := BitVec 16

end Sys2Proof
end

