-- ==== Sys2Proof/Machine/Flags.lean ====
section
/-! DEFINITION. The arithmetic of the family 0x2_ and every computation of the carry flag, on unbounded integers and
then narrowed (spec/42_arithmetic.md R160 to R165; spec/10_state.md R28, R29). All of it is unsigned (R8, D3). -/

namespace Sys2Proof.Machine

/-- `(X + Y) mod 65536` (R161). -/
def sumWord (x y : Word) : Word := BitVec.ofNat 16 (x.toNat + y.toNat)

/-- The carry of ADD: `X + Y > 0xFFFF` on unbounded integers (R161); written on every ADD (D2). -/
def sumCarry (x y : Word) : Bool := decide (x.toNat + y.toNat > 0xFFFF)

/-- `(X - Y) mod 65536`: `X - Y + 65536` when X < Y (R162). -/
def diffWord (x y : Word) : Word := BitVec.ofNat 16 (x.toNat + 65536 - y.toNat)

/-- The carry of SUB: the borrow `X < Y`, from the values before the subtraction (R162, decision D1). -/
def diffCarry (x y : Word) : Bool := decide (x.toNat < y.toNat)

/-- The low 16 bits of the 32-bit unsigned product (R163). -/
def productWord (x y : Word) : Word := BitVec.ofNat 16 (x.toNat * y.toNat)

/-- The unsigned quotient, rounded down (R164). -/
def quotientWord (x y : Word) : Word := BitVec.ofNat 16 (x.toNat / y.toNat)

/-- The remainder `X - Y * (X div Y)` (R165). -/
def remainderWord (x y : Word) : Word := BitVec.ofNat 16 (x.toNat % y.toNat)

/-- The unsigned comparison `X >= Y` of JGE (R186); JL takes the other case (R187). -/
def greaterEqual (x y : Word) : Bool := decide (y.toNat ≤ x.toNat)

end Sys2Proof.Machine
end

