-- ==== Sys2Proof/Syntax.lean ====
section
/-! DEFINITION. The instruction set as data: the 23 rows of the opcode table (spec/30_encoding.md R84), the
operand kinds and formats (R81, R83), the rejections of the decoder, and `Instr`, one constructor per row of
spec/opcode_table.json. -/

namespace Sys2Proof

/-- The three operand kinds of R83: a register selector byte, an absolute address, a literal. -/
inductive OperandKind where
  | reg
  | addr16
  | imm16
  deriving DecidableEq, Repr

/-- The five formats of R81. -/
inductive Format where
  /-- N: the opcode alone. -/
  | n
  /-- R: reg. -/
  | r
  /-- RA: reg, addr16. -/
  | ra
  /-- RI: reg, imm16. -/
  | ri
  /-- A: addr16. -/
  | a
  deriving DecidableEq, Repr

/-- The 23 defined operations of R84, in the table's order. -/
inductive Op where
  | nop | hlt
  | mov | lod | sto | ldr | str | swp | ldi
  | add | sub | mul | div | mod
  | jmp | jz | jnz | jc | jnc | jge | jl
  | scf | ccf
  deriving DecidableEq, Repr

/-- The Instruction Descriptor of the source (R13): opcode, mnemonic, description; `format` is the layout
R81 gives it. -/
structure Descriptor where
  opcode      : Byte
  mnemonic    : String
  format      : Format
  description : String
  deriving DecidableEq, Repr

/-- An instruction with its operands, as its bytes hold them. `sel` is the raw selector byte: 0x00 names X,
every other value Y (R22, R83), decoded by `selReg`; `addr` is an addr16, `imm` an imm16 (R83). Keeping the
selector byte whole drops no bit of the encoding (log entry 7). -/
inductive Instr where
  /-- NOP, `00` (R130). -/
  | nop
  /-- HLT, `01` (R131). -/
  | hlt
  /-- MOV reg, `10 sel` (R141). -/
  | mov (sel : Byte)
  /-- LOD reg addr16, `11 sel hh ll` (R142). -/
  | lod (sel : Byte) (addr : Word)
  /-- STO reg addr16, `12 sel hh ll` (R143). -/
  | sto (sel : Byte) (addr : Word)
  /-- LDR reg, `13 sel` (R144). -/
  | ldr (sel : Byte)
  /-- STR reg, `14 sel` (R145). -/
  | str (sel : Byte)
  /-- SWP, `15` (R146). -/
  | swp
  /-- LDI reg imm16, `16 sel hh ll` (R147). -/
  | ldi (sel : Byte) (imm : Word)
  /-- ADD, `20` (R161). -/
  | add
  /-- SUB, `21` (R162). -/
  | sub
  /-- MUL, `22` (R163). -/
  | mul
  /-- DIV, `23` (R164). -/
  | div
  /-- MOD, `24` (R165). -/
  | mod
  /-- JMP addr16, `30 hh ll` (R181). -/
  | jmp (addr : Word)
  /-- JZ addr16, `31 hh ll` (R182). -/
  | jz (addr : Word)
  /-- JNZ addr16, `32 hh ll` (R183). -/
  | jnz (addr : Word)
  /-- JC addr16, `33 hh ll` (R184). -/
  | jc (addr : Word)
  /-- JNC addr16, `34 hh ll` (R185). -/
  | jnc (addr : Word)
  /-- JGE addr16, `35 hh ll` (R186). -/
  | jge (addr : Word)
  /-- JL addr16, `36 hh ll` (R187). -/
  | jl (addr : Word)
  /-- SCF, `40` (R200). -/
  | scf
  /-- CCF, `41` (R201). -/
  | ccf
  deriving DecidableEq, Repr

/-- Why a list of bytes holds no instruction at its head. -/
inductive Reject where
  /-- No byte at all. The engine never meets it: P is always the address of a cell (R59 d). -/
  | noByte
  /-- The first byte is one of the 233 undefined opcodes (R87). The engine: outcome UnknownOpcode (R126). -/
  | unknownOpcode (b : Byte)
  /-- A defined opcode whose operand bytes run past the end of the bytes given. The engine gives every byte up
  to 0xFFFF, so this is the operand-range failure of R125: AddressOutOfRange. -/
  | truncated (op : Op)
  deriving DecidableEq, Repr

end Sys2Proof
end

