-- ==== Sys2Proof/Decode.lean ====
section
/-! DEFINITION. The opcode table, the decoder and the encoder (spec/30_encoding.md R80 to R88). One table serves
the engine, the scanner and the assembler (R34, R85). The decoder is total on any bytes. -/

namespace Sys2Proof

/-! ## Byte order (R8, R51, R52) -/

/-- `w[15:8]` (R8). -/
def hiByte (w : Word) : Byte := w.extractLsb' 8 8

/-- `w[7:0]` (R8). -/
def loByte (w : Word) : Byte := w.extractLsb' 0 8

/-- `hi ++ lo`: the high byte comes first, big-endian (R8, R51, R52). -/
def bytesToWord (hi lo : Byte) : Word := hi ++ lo

/-! ## The opcode table (R84) -/

/-- One row per operation: opcode, mnemonic, format (R84). The description strings are not in the source
(N12); they are empty here, DESIGN CHOICE, log entry 11. -/
def Op.descriptor : Op → Descriptor
  | .nop => ⟨0x00, "NOP", .n, ""⟩
  | .hlt => ⟨0x01, "HLT", .n, ""⟩
  | .mov => ⟨0x10, "MOV", .r, ""⟩
  | .lod => ⟨0x11, "LOD", .ra, ""⟩
  | .sto => ⟨0x12, "STO", .ra, ""⟩
  | .ldr => ⟨0x13, "LDR", .r, ""⟩
  | .str => ⟨0x14, "STR", .r, ""⟩
  | .swp => ⟨0x15, "SWP", .n, ""⟩
  | .ldi => ⟨0x16, "LDI", .ri, ""⟩
  | .add => ⟨0x20, "ADD", .n, ""⟩
  | .sub => ⟨0x21, "SUB", .n, ""⟩
  | .mul => ⟨0x22, "MUL", .n, ""⟩
  | .div => ⟨0x23, "DIV", .n, ""⟩
  | .mod => ⟨0x24, "MOD", .n, ""⟩
  | .jmp => ⟨0x30, "JMP", .a, ""⟩
  | .jz  => ⟨0x31, "JZ", .a, ""⟩
  | .jnz => ⟨0x32, "JNZ", .a, ""⟩
  | .jc  => ⟨0x33, "JC", .a, ""⟩
  | .jnc => ⟨0x34, "JNC", .a, ""⟩
  | .jge => ⟨0x35, "JGE", .a, ""⟩
  | .jl  => ⟨0x36, "JL", .a, ""⟩
  | .scf => ⟨0x40, "SCF", .n, ""⟩
  | .ccf => ⟨0x41, "CCF", .n, ""⟩

/-- The 23 operations in the table's order. -/
def Op.all : List Op :=
  [.nop, .hlt] ++ [.mov, .lod, .sto, .ldr, .str, .swp, .ldi] ++ [.add, .sub, .mul, .div, .mod]
    ++ [.jmp, .jz, .jnz, .jc, .jnc, .jge, .jl] ++ [.scf, .ccf]

/-- The opcode byte of an operation (R84). -/
def Op.opcode (op : Op) : Byte := op.descriptor.opcode

/-- The format of an operation (R81, R84). -/
def Op.format (op : Op) : Format := op.descriptor.format

/-- The Opcode Table of the source, for annotation (R35). -/
def opcodeTable : List Descriptor := Op.all.map Op.descriptor

/-- The operands of a format, in memory order (R81). -/
def Format.operands : Format → List OperandKind
  | .n  => []
  | .r  => [.reg]
  | .ra => [.reg, .addr16]
  | .ri => [.reg, .imm16]
  | .a  => [.addr16]

/-- How many bytes an operand takes (R83). -/
def OperandKind.size : OperandKind → Nat
  | .reg    => 1
  | .addr16 => 2
  | .imm16  => 2

/-- The fixed length of an instruction, its opcode byte included: 1, 2, 3 or 4 (R82, R84). -/
def Op.length (op : Op) : Nat := 1 + (op.format.operands.map OperandKind.size).sum

/-- `lookup(opcode)` of R85: the row of one of the 23 defined opcodes, nothing for every other byte. -/
def lookup (b : Byte) : Option Op := Op.all.find? fun op => op.opcode == b

/-! ## The decoder -/

/-- The operand bytes of format R: one selector byte (R81). -/
def takeSel (mk : Byte → Instr) : List Byte → Option (Instr × List Byte)
  | sel :: rest => some (mk sel, rest)
  | _ => none

/-- The operand bytes of formats RA and RI: a selector byte and a big-endian word (R81, R83). -/
def takeSelWord (mk : Byte → Word → Instr) : List Byte → Option (Instr × List Byte)
  | sel :: hi :: lo :: rest => some (mk sel (bytesToWord hi lo), rest)
  | _ => none

/-- The operand bytes of format A: a big-endian word (R81, R83). -/
def takeWord (mk : Word → Instr) : List Byte → Option (Instr × List Byte)
  | hi :: lo :: rest => some (mk (bytesToWord hi lo), rest)
  | _ => none

/-- The instruction of an operation with its operand bytes, and the bytes after it; nothing when the bytes end
before the operands do. -/
def decodeOperands (op : Op) (bytes : List Byte) : Option (Instr × List Byte) :=
  match op with
  | .nop => some (.nop, bytes)
  | .hlt => some (.hlt, bytes)
  | .mov => takeSel .mov bytes
  | .lod => takeSelWord .lod bytes
  | .sto => takeSelWord .sto bytes
  | .ldr => takeSel .ldr bytes
  | .str => takeSel .str bytes
  | .swp => some (.swp, bytes)
  | .ldi => takeSelWord .ldi bytes
  | .add => some (.add, bytes)
  | .sub => some (.sub, bytes)
  | .mul => some (.mul, bytes)
  | .div => some (.div, bytes)
  | .mod => some (.mod, bytes)
  | .jmp => takeWord .jmp bytes
  | .jz  => takeWord .jz bytes
  | .jnz => takeWord .jnz bytes
  | .jc  => takeWord .jc bytes
  | .jnc => takeWord .jnc bytes
  | .jge => takeWord .jge bytes
  | .jl  => takeWord .jl bytes
  | .scf => some (.scf, bytes)
  | .ccf => some (.ccf, bytes)

/-- The instruction at the head of a list of bytes, lowest address first, and the bytes after it (R80, R82, R85);
or the name of what is wrong. -/
def decode : List Byte → Except Reject (Instr × List Byte)
  | [] => .error .noByte
  | b0 :: rest =>
    match lookup b0 with
    | none => .error (.unknownOpcode b0)
    | some op =>
      match decodeOperands op rest with
      | none => .error (.truncated op)
      | some found => .ok found

/-! ## The encoder -/

/-- The row of the opcode table an instruction belongs to. -/
def Instr.op : Instr → Op
  | .nop => .nop
  | .hlt => .hlt
  | .mov _ => .mov
  | .lod _ _ => .lod
  | .sto _ _ => .sto
  | .ldr _ => .ldr
  | .str _ => .str
  | .swp => .swp
  | .ldi _ _ => .ldi
  | .add => .add
  | .sub => .sub
  | .mul => .mul
  | .div => .div
  | .mod => .mod
  | .jmp _ => .jmp
  | .jz _ => .jz
  | .jnz _ => .jnz
  | .jc _ => .jc
  | .jnc _ => .jnc
  | .jge _ => .jge
  | .jl _ => .jl
  | .scf => .scf
  | .ccf => .ccf

/-- The operand bytes of an instruction in memory order, words high byte first (R81, R52). -/
def Instr.operandBytes : Instr → List Byte
  | .mov sel | .ldr sel | .str sel => [sel]
  | .lod sel w | .sto sel w | .ldi sel w => [sel, hiByte w, loByte w]
  | .jmp w | .jz w | .jnz w | .jc w | .jnc w | .jge w | .jl w => [hiByte w, loByte w]
  | .nop | .hlt | .swp | .add | .sub | .mul | .div | .mod | .scf | .ccf => []

/-- The bytes of an instruction, lowest address first (R80, R81, R106). -/
def encode (i : Instr) : List Byte := i.op.opcode :: i.operandBytes

/-! ## The host's view of the table -/

/-- Byte `k` of an instruction whose bits are `w`, numbered as spec/opcode_table.json numbers them: B0 is bits
7..0, B1 bits 15..8, and so on. -/
def tableByte (w k : Nat) : Byte := BitVec.ofNat 8 (w / 256 ^ k)

/-- The four bytes, lowest address first, of an instruction of `nbits` bits `w`, every bit above `nbits` zero (4 is the
longest instruction, R81). -/
def tableBytes (nbits w : Nat) : List Byte :=
  [0, 1, 2, 3].map (tableByte (w % 2 ^ nbits))

/-- What the decoder reads from a word of the opcode table. -/
def decodeTableWord (nbits w : Nat) : Option Instr :=
  match decode (tableBytes nbits w) with
  | .ok (i, _) => some i
  | .error _ => none

end Sys2Proof
end

