-- ==== Sys2Proof/Config.lean ====
section
/-! DEFINITION. The parameters of the hardware (spec/00_scope.md R7) and the one free value of the model. -/

namespace Sys2Proof

/-- MEMSIZE, the number of memory cells: 65536 (R7, R50). -/
def Config.memSize : Nat := 0x10000

/-- The highest address of the address space, 0xFFFF (R50, R59). -/
def Config.topAddress : Nat := 0xFFFF

/-- SCAN_LIMIT, the most instructions the Tagging Scanner visits in one scan (R7, R214). -/
def Config.scanLimit : Nat := 100

/-- The load address of the image and the reset value of both pointers (R7, R58, R282). -/
def Config.resetAddress : Word := 0x0000

/-- The Tagging Scanner's branch choices, OPEN in R7 and R216 (decision D14): `scanChoice n j` is the bit
drawn at the `j`-th jump met in scan number `n`; true takes the branch target. A FREE VALUE: it has no body, so
nothing is known of it, and every claim about tags holds for every choice. DESIGN CHOICE of form, log entry 4. -/
opaque Config.scanChoice : Nat → Nat → Bool

end Sys2Proof
end

