-- ==== Sys2Proof/Machine/State.lean ====
section
/-! DEFINITION. The state of the block (spec/10_state.md R20: the list there is complete), the environment's requests
(spec/70_reset_and_hazards.md R285), the reasons a step can stop, and the state after reset (R37). Plain data only. -/

namespace Sys2Proof.Machine

/-- The Tagging Scanner's classification of a cell (R13, R32). -/
inductive Tag where
  | unknown
  | instruction
  | register
  | value
  | pointer
  deriving DecidableEq, Repr

/-- The three exceptions (R240). -/
inductive Exc where
  | divisionByZero
  | moduloByZero
  | addressOutOfRange
  deriving DecidableEq, Repr

/-- The outcome of a step request (R11). -/
inductive StepOutcome where
  /-- The request was not eligible (R122). -/
  | noStep
  /-- An instruction completed and TP was written. -/
  | stepped
  /-- The instruction was HLT (R131). -/
  | halted
  /-- The byte at P is no defined opcode (R126). -/
  | unknownOpcode
  /-- The step raised an exception (R246). -/
  | fault (e : Exc)
  deriving DecidableEq, Repr

/-- The two general registers (R21). -/
inductive Reg where
  | x
  | y
  deriving DecidableEq, Repr

/-- The environment's requests other than `commit` (R285). -/
inductive Request where
  /-- reset(IMAGE) (R280). -/
  | reset (image : List Byte)
  /-- catch_up: P <- TP (R289). -/
  | catchUp
  /-- edit_cell (R286). -/
  | editCell (address : Word) (byte : Byte)
  /-- edit_reg (R287). -/
  | editReg (reg : Reg) (value : Word)
  /-- edit_tp (R288). -/
  | editTp (value : Word)
  deriving DecidableEq, Repr

/-- What the environment gives the block in one tick (R284): its pending requests, in the order it issued them, and
whether `commit` is asserted. -/
structure TickInput where
  requests : List Request
  commit   : Bool
  deriving DecidableEq, Repr

/-- The values of the 65536 cells: (address, byte) pairs, addresses strictly rising, no byte 0x00 listed. An
unlisted cell holds 0x00, the value R37 gives it at reset. -/
abbrev Memory := List Host.Cell

/-- The tags of the 65536 cells in the same form; an unlisted cell is Unknown, the tag R37 gives it at reset. -/
abbrev Tags := List (Nat × Tag)

/-- The complete state of the block (R20), the outcome its snapshot carries (R35), and two fields of the model's own. -/
structure State where
  /-- `ram[a].value` (R32). -/
  mem           : Memory
  /-- `ram[a].tag` (R32). -/
  tags          : Tags
  /-- Register X (R21). -/
  x             : Word
  /-- Register Y (R21). -/
  y             : Word
  /-- The carry flag C (R28). -/
  carry         : Bool
  /-- `pointer`, P (R24). -/
  pointer       : Word
  /-- `target_pointer`, TP (R24). -/
  targetPointer : Word
  /-- The fault latch (R33); `none` is the spec's None. -/
  fault         : Option Exc
  /-- The outcome of the last tick's step request (R11, R35); `none` when that tick made none. Log entry 3. -/
  outcome       : Option StepOutcome
  /-- MODEL'S OWN: the environment's inputs to the coming ticks, oldest first (R284, R290). Log entry 1. -/
  schedule      : List TickInput
  /-- MODEL'S OWN: how many scans have been made, the argument of the free branch choices (R216). Log entry 4. -/
  scans         : Nat
  deriving DecidableEq, Repr

/-- Why a step stops the model: never. The machine's own faults are states it goes on from (the latch of R33, where
commits are NoStep and scans and edits go on, R247), so a step of it always answers a next state, and this type has
no constructor. Safe: nothing is stopped that the spec gives an effect. Log entry 5. -/
inductive Fault where
  deriving DecidableEq, Repr

/-- Why a step has no meaning in the model. -/
inductive Refusal where
  /-- Raised by an arm of exec that has no meaning yet; no arm is left. Safe. -/
  | notModelled (mnemonic : String)
  deriving DecidableEq, Repr

/-- The state after reset with the empty image (R37, R280, R282): memory zero, every tag Unknown, X = Y = 0,
C = false, P = TP = 0x0000, fault None. `outcome`, `schedule` and `scans` start empty (DESIGN CHOICE, log entries
1, 3 and 4), and the empty image is the one of R282's "absence of a file" (DESIGN CHOICE, log entry 10). -/
def State.reset : State where
  mem           := []
  tags          := []
  x             := 0
  y             := 0
  carry         := false
  pointer       := Config.resetAddress
  targetPointer := Config.resetAddress
  fault         := none
  outcome       := none
  schedule      := []
  scans         := 0

end Sys2Proof.Machine
end

