-- ==== Sys2Proof/Machine/Ops.lean ====
section
/-! DEFINITION. The named operations over memory, tags and pointers (spec/00_scope.md R10, spec/20_memory.md), the
end of a step (writeback, spec/40_step_and_control.md R123, R128), taking an exception (spec/60_exceptions.md R246)
and reset, the only way back from one (R248). -/

namespace Sys2Proof.Machine

/-! ## Sparse tables: a value for each of the 65536 addresses, the default ones not listed -/

/-- The value at address `a`; `d` where `a` is not listed. -/
def sparseRead {α : Type} (d : α) : List (Nat × α) → Nat → α
  | [], _ => d
  | (b, v) :: rest, a => if a = b then v else sparseRead d rest a

/-- Puts `v` at address `a`, keeping the addresses rising and listing no default value. -/
def sparseWrite {α : Type} [DecidableEq α] (d : α) : List (Nat × α) → Nat → α → List (Nat × α)
  | [], a, v => if v = d then [] else [(a, v)]
  | (b, u) :: rest, a, v =>
    if a < b then
      if v = d then (b, u) :: rest else (a, v) :: (b, u) :: rest
    else if a = b then
      if v = d then rest else (a, v) :: rest
    else (b, u) :: sparseWrite d rest a v

/-- The canonical form from address `lo` on: addresses strictly rising, each a cell's, no default value listed. -/
def sparseWf {α : Type} [DecidableEq α] (d : α) : Nat → List (Nat × α) → Bool
  | _, [] => true
  | lo, (a, v) :: rest => decide (lo ≤ a ∧ a ≤ Config.topAddress ∧ v ≠ d) && sparseWf d (a + 1) rest

/-! ## Memory (R50, R51, R56, R59) -/

/-- The canonical form of the memory: an unlisted cell reads 0x00 (R37, R58 b). -/
def Memory.wf (m : Memory) : Bool := sparseWf (0x00 : Byte) 0 m

/-- The canonical form of the tags: an unlisted cell is Unknown (R37). -/
def Tags.wf (t : Tags) : Bool := sparseWf Tag.unknown 0 t

/-- `ram[a].value` (R10, R50). -/
def readByte (m : Memory) (a : Nat) : Byte := sparseRead 0x00 m a

/-- `ram[a].value <- b` (R10, R286). -/
def writeByte (m : Memory) (a : Nat) (b : Byte) : Memory := sparseWrite 0x00 m a b

/-- The `n` bytes from `a` upward, those above 0xFFFF left out: nothing wraps (R50, R59). -/
def readBytes (m : Memory) : Nat → Nat → List Byte
  | 0, _ => []
  | n + 1, a => if a ≤ Config.topAddress then readByte m a :: readBytes m n (a + 1) else []

/-- Whether a 2-byte access at `a` is in range: `a + 1 <= 0xFFFF`, computed without wrap (R10, R59). -/
def wordInRange (a : Word) : Bool := decide (a.toNat + 1 ≤ Config.topAddress)

/-- `MemRead(a, 2)`, big-endian; nothing where R10 raises AddressOutOfRange (R51, R59). -/
def readWord (m : Memory) (a : Word) : Option Word :=
  if wordInRange a then some (bytesToWord (readByte m a.toNat) (readByte m (a.toNat + 1))) else none

/-- `MemWrite(a, 2, v)`, big-endian, both bytes; nothing where R10 raises AddressOutOfRange, and then no byte is
written (R51, R56, R59). -/
def writeWord (m : Memory) (a v : Word) : Option Memory :=
  if wordInRange a then
    some (writeByte (writeByte m a.toNat (hiByte v)) (a.toNat + 1) (loByte v))
  else none

/-- The bytes of `image` written from `a` upward (R282). -/
def loadBytes (m : Memory) : Nat → List Byte → Memory
  | _, [] => m
  | a, b :: rest => loadBytes (writeByte m a b) (a + 1) rest

/-! ## Tags (R32, R214) -/

/-- `ram[a].tag`. -/
def readTag (t : Tags) (a : Nat) : Tag := sparseRead .unknown t a

/-- `ram[a].tag <- g`. -/
def writeTag (t : Tags) (a : Nat) (g : Tag) : Tags := sparseWrite .unknown t a g

/-! ## The pointers and the end of a step -/

/-- AtRest: `pointer == target_pointer` (R25, R121). -/
def State.atRest (s : State) : Bool := s.pointer == s.targetPointer

/-- A `commit` causes a step exactly when P = TP and fault = None (R122). -/
def State.eligible (s : State) : Bool := s.atRest && s.fault == none

/-- TAKING AN EXCEPTION (R246): the outcome is Fault(E), the latch holds E, nothing else changes. -/
def raise (s : State) (e : Exc) : Host.Outcome State Fault Refusal :=
  .next { s with fault := some e, outcome := some (.fault e) }

/-- The phases NEXT and WRITEBACK (R124): `before` is the state before the step, `after` the same state with the
instruction's writes in it, `next` the next address on unbounded integers. If `next` does not fit, AddressOutOfRange
and no write (R128, R129); else all writes together and TP <- next. P is never written (R127). -/
def writeback (before after : State) (next : Nat) : Host.Outcome State Fault Refusal :=
  if next ≤ Config.topAddress then
    .next { after with targetPointer := BitVec.ofNat 16 next, outcome := some .stepped }
  else raise before .addressOutOfRange

/-- The sequential next address of an instruction of length `len` at P: `P + len`, on unbounded integers (R128). -/
def State.following (s : State) (len : Nat) : Nat := s.pointer.toNat + len

/-- Reset with an image (R37, R280, R282): every piece of the block's state to its reset value, the image from
address 0. An image longer than 65536 bytes is refused and the state is unchanged (R282, D22). The environment's
schedule and the scan counter are not the block's state and stay, as does `outcome`, which the tick sets (log entry 6).
There is no return from an exception: this is the only way out of a faulted state (R248). -/
def State.resetWith (s : State) (image : List Byte) : State :=
  if image.length ≤ Config.memSize then
    { State.reset with
      mem := loadBytes [] Config.resetAddress.toNat image
      outcome := s.outcome
      schedule := s.schedule
      scans := s.scans }
  else s

end Sys2Proof.Machine
end

