-- ==== Sys2Proof/Machine/Operands.lean ====
section
/-! DEFINITION. The operand forms: the register a selector byte names (spec/10_state.md R22), reading and writing a
register (R21), and the two addressing modes (spec/41_data_movement.md R140). -/

namespace Sys2Proof.Machine

/-- The register a selector byte names: X for 0x00, Y for every other value (R22, R83). -/
def selReg (sel : Byte) : Reg := if sel = 0x00 then .x else .y

/-- The register a MOV copies from: the one not selected (R23, R141). -/
def Reg.other : Reg → Reg
  | .x => .y
  | .y => .x

/-- The value of a register (R21). -/
def State.getReg (s : State) : Reg → Word
  | .x => s.x
  | .y => s.y

/-- `R[s] <- v` (R9, R21); neither register aliases the other. -/
def State.setReg (s : State) (r : Reg) (v : Word) : State :=
  match r with
  | .x => { s with x := v }
  | .y => { s with y := v }

/-- The effective address of LDR and STR: always the value of X before the step (R140, R144, R145). -/
def State.indirectAddr (s : State) : Word := s.x

end Sys2Proof.Machine
end

