-- ==== Sys2Proof/Machine/Arithmetic.lean ====
section
/-! DEFINITION. The arithmetic instructions (spec/42_arithmetic.md R160 to R165): X is the left operand and the
destination, Y the right operand and never written. -/

namespace Sys2Proof.Machine

/-- ADD (R161): X <- (X + Y) mod 65536, C <- the carry out. -/
def execAdd (s : State) : Host.Outcome State Fault Refusal :=
  writeback s { s with x := sumWord s.x s.y, carry := sumCarry s.x s.y } (s.following 1)

/-- SUB (R162): X <- (X - Y) mod 65536, C <- the borrow. -/
def execSub (s : State) : Host.Outcome State Fault Refusal :=
  writeback s { s with x := diffWord s.x s.y, carry := diffCarry s.x s.y } (s.following 1)

/-- MUL (R163): X <- (X * Y) mod 65536; C keeps its value. -/
def execMul (s : State) : Host.Outcome State Fault Refusal :=
  writeback s { s with x := productWord s.x s.y } (s.following 1)

/-- DIV (R164): DivisionByZero when Y = 0, whatever X is; else X <- X div Y. -/
def execDiv (s : State) : Host.Outcome State Fault Refusal :=
  if s.y = 0 then raise s .divisionByZero
  else writeback s { s with x := quotientWord s.x s.y } (s.following 1)

/-- MOD (R165): ModuloByZero when Y = 0, whatever X is; else X <- X rem Y. -/
def execMod (s : State) : Host.Outcome State Fault Refusal :=
  if s.y = 0 then raise s .moduloByZero
  else writeback s { s with x := remainderWord s.x s.y } (s.following 1)

end Sys2Proof.Machine
end

