-- ==== Sys2Proof/Machine/Control.lean ====
section
/-! DEFINITION. The control instructions NOP and HLT (spec/40_step_and_control.md R130, R131). -/

namespace Sys2Proof.Machine

/-- NOP (R130): nothing but TP <- P + 1. -/
def execNop (s : State) : Host.Outcome State Fault Refusal :=
  writeback s s (s.following 1)

/-- HLT (R131): outcome Halted and nothing else; TP is not written, and there is no halted bit. -/
def execHlt (s : State) : Host.Outcome State Fault Refusal :=
  .next { s with outcome := some .halted }

end Sys2Proof.Machine
end

