-- ==== Sys2Proof/Machine/DataMovement.lean ====
section
/-! DEFINITION. The data movement instructions (spec/41_data_movement.md R140 to R147). None reads or writes C. -/

namespace Sys2Proof.Machine

/-- A load into the register `sel` names, from `a` (R142, R144): AddressOutOfRange where the word is not in range. -/
def loadFrom (sel : Byte) (a : Word) (len : Nat) (s : State) : Host.Outcome State Fault Refusal :=
  match readWord s.mem a with
  | some v => writeback s (s.setReg (selReg sel) v) (s.following len)
  | none => raise s .addressOutOfRange

/-- A store of the register `sel` names, to `a` (R143, R145): AddressOutOfRange where the word is not in range, and
then neither byte is written. Tags are not touched (R66). -/
def storeTo (sel : Byte) (a : Word) (len : Nat) (s : State) : Host.Outcome State Fault Refusal :=
  match writeWord s.mem a (s.getReg (selReg sel)) with
  | some m => writeback s { s with mem := m } (s.following len)
  | none => raise s .addressOutOfRange

/-- MOV (R141): the selected register takes the value of the other one. -/
def execMov (sel : Byte) (s : State) : Host.Outcome State Fault Refusal :=
  writeback s (s.setReg (selReg sel) (s.getReg (selReg sel).other)) (s.following 2)

/-- LOD (R142): the selected register takes the word at the absolute address. -/
def execLod (sel : Byte) (addr : Word) (s : State) : Host.Outcome State Fault Refusal :=
  loadFrom sel addr 4 s

/-- STO (R143): the word at the absolute address takes the selected register. -/
def execSto (sel : Byte) (addr : Word) (s : State) : Host.Outcome State Fault Refusal :=
  storeTo sel addr 4 s

/-- LDR (R144): the selected register takes the word at X; the address is X before the step. -/
def execLdr (sel : Byte) (s : State) : Host.Outcome State Fault Refusal :=
  loadFrom sel s.indirectAddr 2 s

/-- STR (R145): the word at X takes the selected register. -/
def execStr (sel : Byte) (s : State) : Host.Outcome State Fault Refusal :=
  storeTo sel s.indirectAddr 2 s

/-- SWP (R146): X and Y exchange their old values. -/
def execSwp (s : State) : Host.Outcome State Fault Refusal :=
  writeback s { s with x := s.y, y := s.x } (s.following 1)

/-- LDI (R147): the selected register takes the literal. -/
def execLdi (sel : Byte) (imm : Word) (s : State) : Host.Outcome State Fault Refusal :=
  writeback s (s.setReg (selReg sel) imm) (s.following 4)

end Sys2Proof.Machine
end

