-- ==== Sys2Proof/Machine/FlagOps.lean ====
section
/-! DEFINITION. The flag instructions (spec/44_flag_ops.md R200, R201). -/

namespace Sys2Proof.Machine

/-- SCF (R200): C <- true. -/
def execScf (s : State) : Host.Outcome State Fault Refusal :=
  writeback s { s with carry := true } (s.following 1)

/-- CCF (R201): C <- false; it clears, it does not complement. -/
def execCcf (s : State) : Host.Outcome State Fault Refusal :=
  writeback s { s with carry := false } (s.following 1)

end Sys2Proof.Machine
end

