-- ==== Sys2Proof/Machine/Jumps.lean ====
section
/-! DEFINITION. The jump instructions (spec/43_jumps.md R180 to R187). A taken jump's target is the operand itself and
always fits; a jump not taken goes to P + 3 and is subject to the next-address check (R128). -/

namespace Sys2Proof.Machine

/-- The next address of a jump (R180). -/
def jumpIf (cond : Bool) (addr : Word) (s : State) : Host.Outcome State Fault Refusal :=
  writeback s s (if cond then addr.toNat else s.following 3)

/-- JMP (R181): unconditional. -/
def execJmp (addr : Word) (s : State) : Host.Outcome State Fault Refusal :=
  jumpIf true addr s

/-- JZ (R182): when X = 0x0000. -/
def execJz (addr : Word) (s : State) : Host.Outcome State Fault Refusal :=
  jumpIf (s.x == 0) addr s

/-- JNZ (R183): when X is not 0x0000. -/
def execJnz (addr : Word) (s : State) : Host.Outcome State Fault Refusal :=
  jumpIf (s.x != 0) addr s

/-- JC (R184): when C is true. -/
def execJc (addr : Word) (s : State) : Host.Outcome State Fault Refusal :=
  jumpIf s.carry addr s

/-- JNC (R185): when C is false. -/
def execJnc (addr : Word) (s : State) : Host.Outcome State Fault Refusal :=
  jumpIf (!s.carry) addr s

/-- JGE (R186): when X >= Y, unsigned. -/
def execJge (addr : Word) (s : State) : Host.Outcome State Fault Refusal :=
  jumpIf (greaterEqual s.x s.y) addr s

/-- JL (R187): when X < Y, unsigned. -/
def execJl (addr : Word) (s : State) : Host.Outcome State Fault Refusal :=
  jumpIf (!greaterEqual s.x s.y) addr s

end Sys2Proof.Machine
end

