-- ==== Sys2Proof/Machine/Dispatch.lean ====
section
/-! DEFINITION. One arm per row of the opcode table (spec/30_encoding.md R84). The state is the one after the operand
fetch: `pointer` addresses the instruction (R26, R124). -/

namespace Sys2Proof.Machine

def exec (i : Instr) (s : State) : Host.Outcome State Fault Refusal :=
  match i with
  | .nop => Sys2Proof.Machine.execNop s
  | .hlt => Sys2Proof.Machine.execHlt s
  | .mov sel => Sys2Proof.Machine.execMov sel s
  | .lod sel addr => Sys2Proof.Machine.execLod sel addr s
  | .sto sel addr => Sys2Proof.Machine.execSto sel addr s
  | .ldr sel => Sys2Proof.Machine.execLdr sel s
  | .str sel => Sys2Proof.Machine.execStr sel s
  | .swp => Sys2Proof.Machine.execSwp s
  | .ldi sel imm => Sys2Proof.Machine.execLdi sel imm s
  | .add => Sys2Proof.Machine.execAdd s
  | .sub => Sys2Proof.Machine.execSub s
  | .mul => Sys2Proof.Machine.execMul s
  | .div => Sys2Proof.Machine.execDiv s
  | .mod => Sys2Proof.Machine.execMod s
  | .jmp addr => Sys2Proof.Machine.execJmp addr s
  | .jz addr => Sys2Proof.Machine.execJz addr s
  | .jnz addr => Sys2Proof.Machine.execJnz addr s
  | .jc addr => Sys2Proof.Machine.execJc addr s
  | .jnc addr => Sys2Proof.Machine.execJnc addr s
  | .jge addr => Sys2Proof.Machine.execJge addr s
  | .jl addr => Sys2Proof.Machine.execJl addr s
  | .scf => Sys2Proof.Machine.execScf s
  | .ccf => Sys2Proof.Machine.execCcf s

end Sys2Proof.Machine
end

