-- ==== Sys2Proof/Machine/Fetch.lean ====
section
/-! DEFINITION. Opcode fetch, decode and operand fetch (spec/40_step_and_control.md R123, R124, phases FETCH, DECODE
and OPERAND). -/

namespace Sys2Proof.Machine

/-- The bytes the fetch has to decode: those from `a` upward, at most four (the longest instruction, R81) and none
above 0xFFFF (R59 c). The decoder uses only the instruction's own bytes (R55). -/
def fetchBytes (m : Memory) (a : Word) : List Byte := readBytes m 4 a.toNat

/-- The instruction at P, read from the same array the stores write (R64); `unknownOpcode` where the byte at P is no
defined opcode (R126), `truncated` where an operand byte would lie above 0xFFFF (R125). -/
def fetch (s : State) : Except Reject Instr :=
  (decode (fetchBytes s.mem s.pointer)).map Prod.fst

end Sys2Proof.Machine
end

