-- ==== Sys2Proof/Machine/Requests.lean ====
section
/-! DEFINITION. The environment's requests other than commit (spec/70_reset_and_hazards.md R285 to R289), and what the
environment does in a tick (R284, R121). -/

namespace Sys2Proof.Machine

/-- One request, whole (R285, R259). They are legal in every state, faulted or not, and none but reset writes `fault`. -/
def applyRequest (s : State) : Request → State
  | .reset image => s.resetWith image
  | .catchUp => { s with pointer := s.targetPointer }
  | .editCell a b => { s with mem := writeByte s.mem a.toNat b }
  | .editReg r v => s.setReg r v
  | .editTp v => { s with targetPointer := v }

/-- The pending requests, one after another, in the order the environment issued them (R284 (1)). -/
def applyRequests (s : State) (rs : List Request) : State := rs.foldl applyRequest s

/-- What the environment does in a tick the schedule says nothing of: it lets the pointer catch up and asserts commit,
as the Stepper's turbo mode does ("advance continuously with no transition delay", R121, R289). DESIGN CHOICE, log
entry 1. -/
def turboInput : TickInput := { requests := [.catchUp], commit := true }

/-- The environment's input to the next tick. -/
def nextInput (s : State) : TickInput := s.schedule.headD turboInput

end Sys2Proof.Machine
end

