-- ==== Sys2Proof/Machine/Scanner.lean ====
section
/-! DEFINITION. The Tagging Scanner (spec/45_tagging_scanner.md R210 to R220): a bounded forward decode that writes
tags and nothing else. -/

namespace Sys2Proof.Machine

/-- The tag of an operand's bytes (R215). -/
def operandTag : OperandKind → Tag
  | .reg    => .register
  | .addr16 => .pointer
  | .imm16  => .value

/-- `OperandTag(format, k)` for k = 1, 2, … in order (R214, R215). -/
def operandTags (op : Op) : List Tag :=
  op.format.operands.flatMap fun k => List.replicate k.size (operandTag k)

/-- Marks the operand bytes from `a` upward; those above 0xFFFF are not marked (R218). -/
def markOperands (t : Tags) : Nat → List Tag → Tags
  | _, [] => t
  | a, g :: gs => if a ≤ Config.topAddress then markOperands (writeTag t a g) (a + 1) gs else t

/-- The next `ip` after the instruction `op` at `ip`, on unbounded integers: the branch target or the byte after it for
the seven jumps, by the bit drawn (R216), else the byte after it (R214). -/
def scanNext (m : Memory) (op : Op) (ip : Nat) (taken : Bool) : Nat :=
  if op.format = .a ∧ taken then
    (bytesToWord (readByte m (ip + 1)) (readByte m (ip + 2))).toNat
  else ip + op.length

/-- The number of jumps met after `op`: a bit is drawn at each of the seven jumps (R216). -/
def jumpsMet (op : Op) (j : Nat) : Nat := if op.format = .a then j + 1 else j

/-- The scan loop of R214, at most `fuel` visits from `ip`, `j` jumps met so far. It stops at HLT, at an undefined
opcode (R217) and rather than go above 0xFFFF (R218). -/
def scanLoop (choice : Nat → Bool) (m : Memory) : Nat → Nat → Nat → Tags → Tags
  | 0, _, _, t => t
  | fuel + 1, ip, j, t =>
    let marked := writeTag t ip .instruction
    match lookup (readByte m ip) with
    | none => marked
    | some op =>
      if op = .hlt then marked
      else
        let all := markOperands marked (ip + 1) (operandTags op)
        if ip + op.length - 1 ≤ Config.topAddress then
          let next := scanNext m op ip (choice j)
          if next ≤ Config.topAddress then scanLoop choice m fuel next (jumpsMet op j) all else all
        else all

/-- The tags after a scan: all Unknown (R212), the cell at P marked (R213), then the loop from TP (R214). -/
def scanTags (choice : Nat → Bool) (s : State) : Tags :=
  scanLoop choice s.mem Config.scanLimit s.targetPointer.toNat 0
    (writeTag [] s.pointer.toNat .instruction)

/-- `Scan(choice)` (R214): only tags change (R211). -/
def scanWith (choice : Nat → Bool) (s : State) : State := { s with tags := scanTags choice s }

/-- A scan with the free choices of its number (R216, log entry 4). -/
def scan (s : State) : State :=
  { scanWith (Config.scanChoice s.scans) s with scans := s.scans + 1 }

end Sys2Proof.Machine
end

