-- ==== Sys2Proof/Machine/Engine.lean ====
section
/-! DEFINITION. The step request (spec/40_step_and_control.md R122, R123), the tick
(spec/70_reset_and_hazards.md R284), and how the host places one instruction. -/

namespace Sys2Proof.Machine

/-- Step() of R123 on an eligible state: fetch, decode, operand range, execute. An undefined opcode changes nothing
(R126); operand bytes above 0xFFFF raise AddressOutOfRange before any effect (R125). -/
def runStep (s : State) : Host.Outcome State Fault Refusal :=
  match fetch s with
  | .ok i => exec i s
  | .error (.unknownOpcode _) => .next { s with outcome := some .unknownOpcode }
  | .error (.truncated _) => raise s .addressOutOfRange
  | .error .noByte => raise s .addressOutOfRange

/-- A `commit` request (R122): a step when P = TP and fault = None, else NoStep and no change. -/
def commit (s : State) : Host.Outcome State Fault Refusal :=
  if s.eligible then runStep s else .next { s with outcome := some .noStep }

/-- One tick (R284): the pending requests in order, one scan (R220), then, if commit is asserted, one step request. -/
def tick (s : State) (inp : TickInput) : Host.Outcome State Fault Refusal :=
  let ready := scan (applyRequests s inp.requests)
  if inp.commit then commit ready else .next { ready with outcome := none }

/-- The next tick, with the input the environment's schedule gives it (log entry 1). -/
def scheduledTick (s : State) : Host.Outcome State Fault Refusal :=
  tick { s with schedule := s.schedule.tail } (nextInput s)

/-- Where `placeInstr` puts an instruction: at TP, or at 0x0000 where fewer than four bytes are left above TP. -/
def placeAddress (s : State) : Word :=
  if s.targetPointer.toNat + 3 ≤ Config.topAddress then s.targetPointer else 0

/-- `bytes` stored where the next tick's step fetches, with what that takes: no scheduled input stands before it, the
latch is clear, TP is the place (log entry 15). -/
def placeInstr (s : State) (bytes : List Byte) : State :=
  { s with
    mem := loadBytes s.mem (placeAddress s).toNat bytes
    targetPointer := placeAddress s
    fault := none
    schedule := [] }

end Sys2Proof.Machine
end

