-- ==== Sys2Proof/Machine/Step.lean ====
section
/-! DEFINITION. One step of the model is one tick of the machine (spec/70_reset_and_hazards.md R284): "the whole
machine (Tagging Scanner + at most one Execution Engine step) runs once per external tick". Log entry 1. -/

namespace Sys2Proof.Machine

/-- One tick; it always answers a next state (log entry 5). -/
def step (s : State) : Host.Outcome State Fault Refusal := scheduledTick s

/-- `s` with the instruction of `nbits` bits `w` stored where the next step fetches (log entry 15). -/
def State.withFetchWord (s : State) (nbits w : Nat) : State := placeInstr s (tableBytes nbits w)

end Sys2Proof.Machine
end

