-- ==== Sys2Proof/Machine/Assembler.lean ====
section
/-! DEFINITION. The assembly language (spec/30_encoding.md R100 to R110): from a source text to the image reset
loads. The assembler is software outside the block (R5 b); it is here because it defines the byte encodings. Where
the source does not say what it does (N15), or the text is ill-formed (R105), it refuses by name, log entry 9. -/

namespace Sys2Proof.Machine

/-- A text, as its characters. -/
abbrev Text := List Char

/-- Why an assembly fails; each names the source line, counted from 1 (R108). -/
inductive AsmError where
  /-- A non-hexadecimal operand (R108). -/
  | malformedOperand (line : Nat)
  /-- A mnemonic that is none of the 23 (R108). -/
  | unknownMnemonic (line : Nat)
  /-- A label line or name that R105 (or R101) rules out. -/
  | illFormedLabel (line : Nat)
  /-- A form whose assembly the source does not state (N15): refused. -/
  | notInSource (line : Nat)
  deriving DecidableEq, Repr

/-- One line of source: its number, its label if any, its words (R100, R101). -/
structure AsmLine where
  number : Nat
  label  : Option Text
  words  : List Text
  deriving DecidableEq, Repr

/-! ## Text -/

/-- A text cut at every `sep`. -/
def cutAt (sep : Char) : Text → List Text
  | [] => [[]]
  | c :: cs =>
    match cutAt sep cs with
    | [] => [[c]]
    | w :: ws => if c = sep then [] :: w :: ws else (c :: w) :: ws

/-- The words of a text: "operands space-separated" (R100). -/
def wordsOf (t : Text) : List Text := (cutAt ' ' t).filter (· ≠ [])

/-- Whether `a` occurs in a text. -/
def occursIn (a : Text) : Text → Bool
  | [] => a.isEmpty
  | c :: cs => a.isPrefixOf (c :: cs) || occursIn a cs

/-- A text with its letters in upper case: mnemonics are case-insensitive (R100). -/
def upper (t : Text) : Text := t.map Char.toUpper

/-- The mnemonic of an operation (R84), as characters. -/
def Op.letters (op : Op) : Text := op.descriptor.mnemonic.toList

/-- The operation a word names, in any case (R100). -/
def opOfWord (w : Text) : Option Op := Op.all.find? fun op => Op.letters op == upper w

/-! ## Hexadecimal tokens (R103) -/

/-- The value of a hexadecimal digit, upper-case letters as the source's examples write them. -/
def hexValue (c : Char) : Option Nat :=
  ("0123456789ABCDEF".toList.findIdx? (· == c))

/-- Whether a character is a hexadecimal digit in either case. -/
def isHex (c : Char) : Bool := (hexValue c.toUpper).isSome

/-- The number a list of upper-case hexadecimal digits writes. -/
def hexNumber : Nat → Text → Option Nat
  | acc, [] => some acc
  | acc, c :: cs =>
    match hexValue c with
    | some d => hexNumber (16 * acc + d) cs
    | none => none

/-- The `n`-digit hexadecimal token of a number. -/
def hexText : Nat → Nat → Text
  | 0, _ => []
  | n + 1, v => hexText n (v / 16) ++ ["0123456789ABCDEF".toList.getD (v % 16) '0']

/-! ## Lines and labels (R100, R101, R104, R105) -/

/-- A source line's label and words; a line holds at most one label. A label name is any one word: every character but
the colon, the space and the end of line. Which characters a name may hold is open (N15): DESIGN CHOICE, log
entry 16. Spaces may stand before a name and between it and its colon, and every colon of a line is read as a label's,
so that a colon in an operand is an ill-formed label and no malformed operand: R100 shows only `name:` and leaves both
open, DESIGN CHOICE, log entry 17. -/
def parseLine (n : Nat) (t : Text) : Except AsmError AsmLine :=
  match cutAt ':' t with
  | [body] => .ok ⟨n, none, wordsOf body⟩
  | [name, body] =>
    match wordsOf name with
    | [l] => .ok ⟨n, some l, wordsOf body⟩
    | _ => .error (.illFormedLabel n)
  | _ => .error (.illFormedLabel n)

/-- The lines of a source text, numbered from `n`. -/
def parseLines : Nat → List Text → Except AsmError (List AsmLine)
  | _, [] => .ok []
  | n, t :: ts => do
    let l ← parseLine n t
    let ls ← parseLines (n + 1) ts
    return l :: ls

/-- Pass 1 (R104): the label table, each label bound to the address of the next emitted instruction; a label with no
instruction after it to the address after the last byte (DESIGN CHOICE, log entry 17). -/
def labelTable : Nat → List AsmLine → Except AsmError (List (Text × Nat))
  | _, [] => .ok []
  | addr, l :: ls =>
    match l.words.head?.map opOfWord with
    | some none => .error (.unknownMnemonic l.number)
    | some (some op) => bindLabel l addr <$> labelTable (addr + op.length) ls
    | none => bindLabel l addr <$> labelTable addr ls
where
  bindLabel (l : AsmLine) (addr : Nat) (table : List (Text × Nat)) : List (Text × Nat) :=
    match l.label with
    | some name => (name, addr) :: table
    | none => table

/-- The hexadecimal operand tokens of a source whose labels are `names`. A token that is itself a label's name is that
label's reference, also when all its letters are hexadecimal digits, and no hexadecimal operand (R101, R105; log
entry 16). -/
def hexOperands (names : List Text) (ls : List AsmLine) : List Text :=
  ls.flatMap fun l => l.words.tail.filter fun w => w.all isHex && !names.contains w

/-- R105: a label name holds no `x` or `y`, and is a substring of no mnemonic, no other label name and no hexadecimal
operand; and no label is defined twice. Letters are compared without case, the stricter reading (log entry 9). -/
def labelFits (names : List Text) (hexes : List Text) (name : Text) : Bool :=
  !occursIn ['X'] (upper name) && !occursIn ['Y'] (upper name)
    && Op.all.all (fun op => !occursIn (upper name) (Op.letters op))
    && (names.filter fun other => occursIn (upper name) (upper other)).length == 1
    && hexes.all fun h => !occursIn (upper name) (upper h)

/-- Every label of a source fits, and its address has four digits. -/
def checkLabels (table : List (Text × Nat)) (hexes : List Text) : List AsmLine → Except AsmError Unit
  | [] => .ok ()
  | l :: ls =>
    match l.label with
    | none => checkLabels table hexes ls
    | some name =>
      if labelFits (table.map Prod.fst) hexes name then
        if (table.lookup name).getD 0 ≤ Config.topAddress then checkLabels table hexes ls
        else .error (.notInSource l.number)
      else .error (.illFormedLabel l.number)

/-! ## Pass 2 (R102, R105, R106) -/

/-- The substitution of R105 on one operand token: a label by its four-digit address, `x` by `00`, `y` by `01`.
DESIGN CHOICE, log entry 16, where N15 and R105 leave it open: a label is found by its exact characters, upper and
lower case apart; upper-case `X` and `Y` are no register tokens; and a token is replaced once, so that no label's name
is looked for in the address put for another. -/
def substitute (table : List (Text × Nat)) (w : Text) : Text :=
  match table.lookup w with
  | some addr => hexText 4 addr
  | none => if w = ['x'] then ['0', '0'] else if w = ['y'] then ['0', '1'] else w

/-- The bytes of one operand token of `size` bytes: exactly two hexadecimal digits a byte (R103), high byte first. -/
def operandBytes (line size : Nat) (w : Text) : Except AsmError (List Byte) :=
  if w.all isHex then
    match hexNumber 0 w with
    | some v =>
      if w.length = 2 * size then
        .ok (if size = 1 then [BitVec.ofNat 8 v]
             else [hiByte (BitVec.ofNat 16 v), loByte (BitVec.ofNat 16 v)])
      else .error (.notInSource line)
    | none => .error (.notInSource line)
  else .error (.malformedOperand line)

/-- The operand bytes of a line, in written order (R106); a wrong number of operands is not in the source (N15). -/
def operandsBytes (table : List (Text × Nat)) (line : Nat) :
    List OperandKind → List Text → Except AsmError (List Byte)
  | [], [] => .ok []
  | k :: ks, w :: ws => do
    let b ← operandBytes line k.size (substitute table w)
    let bs ← operandsBytes table line ks ws
    return b ++ bs
  | _, _ => .error (.notInSource line)

/-- The bytes of one line: the opcode and the operand bytes; none for a line without a mnemonic (R106). -/
def lineBytes (table : List (Text × Nat)) (l : AsmLine) : Except AsmError (List Byte) :=
  match l.words with
  | [] => .ok []
  | w :: ws =>
    match opOfWord w with
    | none => .error (.unknownMnemonic l.number)
    | some op => (op.opcode :: ·) <$> operandsBytes table l.number op.format.operands ws

/-- The bytes of all lines, packed with no gaps (R104, R107). -/
def linesBytes (table : List (Text × Nat)) : List AsmLine → Except AsmError (List Byte)
  | [] => .ok []
  | l :: ls => do
    let b ← lineBytes table l
    let bs ← linesBytes table ls
    return b ++ bs

/-- The assembler: source text to byte vector, or the failure of the whole assembly (R104 to R108). -/
def assemble (source : Text) : Except AsmError (List Byte) := do
  let ls ← parseLines 1 (cutAt '\n' source)
  let table ← labelTable 0 ls
  checkLabels table (hexOperands (table.map Prod.fst) ls) ls
  linesBytes table ls

/-! ## Writing an instruction (R102, R103, R110) -/

/-- The token of a selector byte: `x`, `y`, or the byte itself where it is neither 0x00 nor 0x01 (R102). -/
def selToken (sel : Byte) : Text :=
  if sel = 0x00 then ['x'] else if sel = 0x01 then ['y'] else hexText 2 sel.toNat

/-- The operand tokens of an instruction, in written order (R110). -/
def operandTokens : Instr → List Text
  | .mov sel | .ldr sel | .str sel => [selToken sel]
  | .lod sel w | .sto sel w | .ldi sel w => [selToken sel, hexText 4 w.toNat]
  | .jmp w | .jz w | .jnz w | .jc w | .jnc w | .jge w | .jl w => [hexText 4 w.toNat]
  | .nop | .hlt | .swp | .add | .sub | .mul | .div | .mod | .scf | .ccf => []

/-- The source line of an instruction: mnemonic and operands, space-separated (R100, R110). -/
def sourceLine (i : Instr) : Text :=
  Op.letters i.op ++ (operandTokens i).flatMap fun w => ' ' :: w

/-- The source text of a sequence of instructions, one a line (R100). -/
def sourceText : List Instr → Text
  | [] => []
  | i :: is => sourceLine i ++ '\n' :: sourceText is

/-- The image reset loads (R282): the assembled bytes; the empty image when there is no file or assembly fails. -/
def imageOf : Option Text → List Byte
  | none => []
  | some source =>
    match assemble source with
    | .ok bytes => bytes
    | .error _ => []

end Sys2Proof.Machine
end

