-- ==== Sys2Proof/Machine/Snapshot.lean ====
section
/-! DEFINITION. The block's output to the environment (spec/10_state.md R35) and the binary codes the spec gives its
enumerations (spec/60_exceptions.md R240, decision D20), which no program can observe. -/

namespace Sys2Proof.Machine

/-- The read-only snapshot of R35: cells with tags, X, Y, C, P, TP, and the latch and the outcome this spec adds. -/
structure Snapshot where
  mem           : Memory
  tags          : Tags
  x             : Word
  y             : Word
  carry         : Bool
  pointer       : Word
  targetPointer : Word
  fault         : Option Exc
  outcome       : Option StepOutcome
  deriving DecidableEq, Repr

/-- The snapshot taken at the end of a tick (R35, R284 (4)); the annotation table beside it is `opcodeTable`. -/
def State.snapshot (s : State) : Snapshot where
  mem           := s.mem
  tags          := s.tags
  x             := s.x
  y             := s.y
  carry         := s.carry
  pointer       := s.pointer
  targetPointer := s.targetPointer
  fault         := s.fault
  outcome       := s.outcome

/-- The 3-bit code of a tag (D20). -/
def Tag.code : Tag → BitVec 3
  | .unknown     => 0
  | .instruction => 1
  | .register    => 2
  | .value       => 3
  | .pointer     => 4

/-- The 2-bit code of the latch (R240). -/
def faultCode : Option Exc → BitVec 2
  | none                    => 0
  | some .divisionByZero    => 1
  | some .moduloByZero      => 2
  | some .addressOutOfRange => 3

/-- The code of an outcome, the fault code beside it (D20). -/
def StepOutcome.code : StepOutcome → Nat × BitVec 2
  | .noStep        => (0, 0)
  | .stepped       => (1, 0)
  | .halted        => (2, 0)
  | .unknownOpcode => (3, 0)
  | .fault e       => (4, faultCode (some e))

end Sys2Proof.Machine
end

