-- ==== Sys2Proof/WellFormed.lean ====
section
/-! DEFINITION. Well-formedness. "Operand values are never illegal" (spec/30_encoding.md R88), and the fields of
`Instr` are exactly as wide as their encodings (R81), so EVERY term of `Instr` is a well-formed instruction and there
is nothing to check about one by itself (log entry 7). What can be ill-formed is an instruction's placement
(R125), an image (R280, R282), and an instruction as the assembler's output (R102). -/

namespace Sys2Proof

/-- The operand bytes of `i` placed at `p` all lie in the address space: `P + len - 1 <= 0xFFFF` (R125). -/
def Instr.fitsAt (i : Instr) (p : Word) : Bool :=
  decide (p.toNat + i.op.length - 1 ≤ Config.topAddress)

/-- An image reset can load: at most 65536 bytes (R280, R282). -/
def imageFits (image : List Byte) : Bool := decide (image.length ≤ Config.memSize)

/-- The selector byte of an instruction that has one (R81). -/
def Instr.selector : Instr → Option Byte
  | .mov sel | .ldr sel | .str sel | .lod sel _ | .sto sel _ | .ldi sel _ => some sel
  | .nop | .hlt | .swp | .add | .sub | .mul | .div | .mod | .scf | .ccf => none
  | .jmp _ | .jz _ | .jnz _ | .jc _ | .jnc _ | .jge _ | .jl _ => none

/-- An instruction whose selector byte is one the tokens `x` and `y` give: 0x00 or 0x01 (R102). The engine accepts
every other selector too (R22). -/
def Instr.fromTokens (i : Instr) : Bool :=
  match i.selector with
  | some sel => sel == 0x00 || sel == 0x01
  | none => true

end Sys2Proof
end

