-- ==== Sys2Proof/Safety.lean ====
section
/-! DEFINITION. What claims are stated in: the invariant of the state, how a run ends
(spec/40_step_and_control.md R132), and what a program can and cannot observe (spec/10_state.md R34;
spec/45_tagging_scanner.md R211). -/

namespace Sys2Proof.Machine

/-- The invariant every step keeps: memory and tags are in their canonical forms, each listing only addresses 0x0000 to
0xFFFF (R32, R50). -/
abbrev State.Inv (s : State) : Prop := Memory.wf s.mem = true ∧ Tags.wf s.tags = true

/-- A run has ended normally when a step has outcome Halted (R132). -/
def State.endedNormally (s : State) : Bool := s.outcome == some .halted

/-- A run has ended abnormally when a step has outcome Fault(E) or UnknownOpcode: never final (R132, D12). -/
def State.endedAbnormally (s : State) : Bool :=
  match s.outcome with
  | some (.fault _) | some .unknownOpcode => true
  | some .noStep | some .stepped | some .halted | none => false

/-- The two states agree on everything but the tags (and the scan counter, which only feeds the tags). -/
abbrev AgreeButTags (s t : State) : Prop :=
  s.mem = t.mem ∧ s.x = t.x ∧ s.y = t.y ∧ s.carry = t.carry ∧ s.pointer = t.pointer ∧
    s.targetPointer = t.targetPointer ∧ s.fault = t.fault ∧ s.outcome = t.outcome ∧ s.schedule = t.schedule

/-- The architectural state of R129: X, Y, C, memory and both pointers. -/
abbrev AgreeArch (s t : State) : Prop :=
  s.mem = t.mem ∧ s.x = t.x ∧ s.y = t.y ∧ s.carry = t.carry ∧ s.pointer = t.pointer ∧
    s.targetPointer = t.targetPointer

/-- The state `s` after taking the exception `e` (R246): the latch and the outcome, nothing else. -/
def State.faulted (s : State) (e : Exc) : State :=
  { s with fault := some e, outcome := some (.fault e) }

/-- What every completing instruction does beside its own writes (R25, R66, R127): TP takes the next address, the outcome
is Stepped, and P, the tags, the latch and the model's own fields keep their values. -/
abbrev EndsStepAt (s t : State) (next : Nat) : Prop :=
  t.targetPointer.toNat = next ∧ t.outcome = some .stepped ∧ t.pointer = s.pointer ∧ t.tags = s.tags ∧
    t.fault = s.fault ∧ t.schedule = s.schedule ∧ t.scans = s.scans

/-- Every byte of memory reads as before. -/
abbrev SameBytes (s t : State) : Prop := ∀ a, readByte t.mem a = readByte s.mem a

/-- X, Y and C keep their values. -/
abbrev SameRegs (s t : State) : Prop := t.x = s.x ∧ t.y = s.y ∧ t.carry = s.carry

/-- The register a selector byte names holds `v` in `t`, the other one what it held in `s` (R22). -/
abbrev SelectedBecomes (sel : Byte) (v : Nat) (s t : State) : Prop :=
  (sel = 0x00 → t.x.toNat = v ∧ t.y = s.y) ∧ (sel ≠ 0x00 → t.y.toNat = v ∧ t.x = s.x)

/-- The value of the register a selector byte names (R22). -/
def selectedValue (sel : Byte) (s : State) : Nat := if sel = 0x00 then s.x.toNat else s.y.toNat

/-- The big-endian word at `a` and `a + 1` (R51), as a number. -/
def wordAt (s : State) (a : Nat) : Nat := 256 * (readByte s.mem a).toNat + (readByte s.mem (a + 1)).toNat

/-- From `s` to `t` the two bytes at `a` and `a + 1` become the big-endian word `v`, and every other byte reads as
before (R51). -/
abbrev StoresWord (s t : State) (a v : Nat) : Prop :=
  (readByte t.mem a).toNat = v / 256 ∧ (readByte t.mem (a + 1)).toNat = v % 256 ∧
    ∀ b, b ≠ a → b ≠ a + 1 → readByte t.mem b = readByte s.mem b

/-- What a conditional jump does (R180): with the condition it goes to the operand, wherever it stands; without it to
P + 3, and where that does not fit it raises AddressOutOfRange (R128). Nothing else changes. -/
abbrev JumpsWhen (i : Instr) (target : Word) (cond : Prop) (s : State) : Prop :=
  (cond → ∃ t, exec i s = .next t ∧ EndsStepAt s t target.toNat ∧ SameBytes s t ∧ SameRegs s t) ∧
  (¬cond → s.pointer.toNat + 3 ≤ 0xFFFF → ∃ t, exec i s = .next t ∧
    EndsStepAt s t (s.pointer.toNat + 3) ∧ SameBytes s t ∧ SameRegs s t) ∧
  (¬cond → 0xFFFF < s.pointer.toNat + 3 → exec i s = .next (s.faulted .addressOutOfRange))

/-- The 233 undefined opcode bytes, range by range (R87). -/
def undefinedOpcode (b : Byte) : Bool :=
  let n := b.toNat
  (decide (0x02 ≤ n ∧ n ≤ 0x0F)) || (decide (0x17 ≤ n ∧ n ≤ 0x1F)) || (decide (0x25 ≤ n ∧ n ≤ 0x2F))
    || (decide (0x37 ≤ n ∧ n ≤ 0x3F)) || decide (0x42 ≤ n)

/-- A step may be taken: P = TP and fault = None (R122). -/
abbrev State.Ready (s : State) : Prop := s.pointer = s.targetPointer ∧ s.fault = none

/-- The bytes of `i` stand in memory from `a` on, and all lie in the address space. -/
abbrev Holds (s : State) (a : Word) (i : Instr) : Prop :=
  i.fitsAt a = true ∧
    ∀ k, (h : k < (encode i).length) → readByte s.mem (a.toNat + k) = (encode i)[k]

/-- `s` with the pointer caught up: the state the next instruction runs in (R289). -/
def State.caughtUp (s : State) : State := { s with pointer := s.targetPointer }

/-- A jump whose operand bytes do not all lie in the address space raises AddressOutOfRange, taken or not (R125, R180). -/
abbrev NeedsItsOperand (op : Op) (s : State) : Prop :=
  s.Ready → readByte s.mem s.pointer.toNat = op.opcode → 0xFFFE ≤ s.pointer.toNat →
    commit s = .next (s.faulted .addressOutOfRange)

/-- The tags R215 gives the operand bytes of an instruction, in memory order. -/
def tagsOfOperands : Op → List Tag
  | .mov | .ldr | .str => [.register]
  | .lod | .sto => [.register, .pointer, .pointer]
  | .ldi => [.register, .value, .value]
  | .jmp | .jz | .jnz | .jc | .jnc | .jge | .jl => [.pointer, .pointer]
  | .nop | .hlt | .swp | .add | .sub | .mul | .div | .mod | .scf | .ccf => []

/-- The last byte of `op` at TP, on unbounded integers. -/
def lastByteAtTp (op : Op) (s : State) : Nat := s.targetPointer.toNat + (tagsOfOperands op).length

/-- Where a scan goes after `op` at TP (R214, R216): for the seven jumps with the bit true the word after the opcode, else
the byte after the instruction. -/
def nextVisit (op : Op) (taken : Bool) (s : State) : Nat :=
  if op ∈ [Op.jmp, .jz, .jnz, .jc, .jnc, .jge, .jl] ∧ taken = true then wordAt s (s.targetPointer.toNat + 1)
  else lastByteAtTp op s + 1

/-- A byte a scan stops at: HLT or an undefined opcode (R217). -/
abbrev StopsScan (b : Byte) : Prop := b = 0x01 ∨ undefinedOpcode b = true

/-- The state a next outcome carries. -/
def nextState : Host.Outcome State Fault Refusal → Option State
  | .next s => some s
  | .fault _ => none
  | .refused _ => none

end Sys2Proof.Machine
end

