-- ==== Sys2Proof/Certificates/Slice0/Obligations.lean ====
section
/-! DEFINITION. The statements for the provers, rule by rule of spec/. A docstring names the rule a statement
formalises; `s.pointer` is P, `s.targetPointer` TP, `0xFFFF` the highest address. -/

open Sys2Proof Sys2Proof.Machine

/-! ## Encoding (spec/30_encoding.md) -/

/-- Six instructions' bytes, written out from the formats of R81 and the map of R84, decode to the instructions they
stand for; `0x7F` is a selector too (R83). -/
def Obligations.WordsOfEachFormatDecode : Prop :=
  decode [0x24] = .ok (.mod, []) ∧ decode [0x13, 0x7F] = .ok (.ldr 0x7F, []) ∧
    decode [0x12, 0x00, 0x01, 0x02] = .ok (.sto 0x00 0x0102, []) ∧
    decode [0x16, 0x01, 0xAB, 0xCD] = .ok (.ldi 0x01 0xABCD, []) ∧
    decode [0x32, 0x12, 0x34] = .ok (.jnz 0x1234, []) ∧ decode [0x41] = .ok (.ccf, [])

/-- Decode after encode, for every instruction, every operand value and whatever bytes follow (R80 to R83). -/
def Obligations.DecodeOfEncodeIsTheInstruction : Prop :=
  ∀ (i : Instr) (rest : List Byte), decode (encode i ++ rest) = .ok (i, rest)

/-- Encode after decode: an accepted list of bytes is the encoding of what it decodes to, then the bytes after it,
so every encoding has one meaning and no bit is dropped (R80 to R83). -/
def Obligations.EncodeOfDecodeIsTheBytes : Prop :=
  ∀ (bytes rest : List Byte) (i : Instr), decode bytes = .ok (i, rest) → encode i ++ rest = bytes

/-- R84, R85: the table answers a row for exactly the bytes that are not undefined opcodes, and then the row whose
opcode that byte is; exactly 233 bytes are undefined (R87). -/
def Obligations.LookupFollowsTheOpcodeMap : Prop :=
  (∀ b : Byte, lookup b = none ↔ undefinedOpcode b = true) ∧
    (∀ (b : Byte) (op : Op), lookup b = some op ↔ op.opcode = b) ∧
    ((List.range 256).filter fun n => undefinedOpcode (BitVec.ofNat 8 n)).length = 233

/-- R22, R83: a selector byte names X when it is 0x00 and Y for each other value: every instruction with a selector
byte does with any non-zero one what it does with 0x01. -/
def Obligations.EverySelectorButZeroNamesY : Prop :=
  ∀ (sel : Byte) (w : Word) (s : State), selReg 0x00 = .x ∧ (sel ≠ 0x00 → selReg sel = .y ∧
    exec (.mov sel) s = exec (.mov 0x01) s ∧ exec (.lod sel w) s = exec (.lod 0x01 w) s ∧
    exec (.sto sel w) s = exec (.sto 0x01 w) s ∧ exec (.ldr sel) s = exec (.ldr 0x01) s ∧
    exec (.str sel) s = exec (.str 0x01) s ∧ exec (.ldi sel w) s = exec (.ldi 0x01 w) s)

/-! ## Control (spec/40_step_and_control.md) -/

/-- R130, NOP: it completes with TP <- P + 1 and nothing else; at 0xFFFF it raises AddressOutOfRange. -/
def Obligations.NopOnlyAdvances : Prop :=
  ∀ s : State, encode .nop = [0x00] ∧
    (s.pointer.toNat + 1 ≤ 0xFFFF → ∃ t, exec .nop s = .next t ∧
      EndsStepAt s t (s.pointer.toNat + 1) ∧ SameBytes s t ∧ SameRegs s t) ∧
    (s.pointer = 0xFFFF → exec .nop s = .next (s.faulted .addressOutOfRange))

/-- R131, HLT: outcome Halted and no other change, at every address, 0xFFFF too; a further commit executes the same
HLT with the same outcome. That HLT leaves the pointer is the spec's decision D11. -/
def Obligations.HltHaltsAndStays : Prop :=
  ∀ s : State, encode .hlt = [0x01] ∧ exec .hlt s = .next { s with outcome := some .halted } ∧
    (s.Ready → readByte s.mem s.pointer.toNat = 0x01 → ∃ t, commit s = .next t ∧
      t = { s with outcome := some .halted } ∧ commit t = .next t)

/-! ## Data movement (spec/41_data_movement.md) -/

/-- R141, MOV: the selected register takes the other one's value, so both hold it; C and memory stay. -/
def Obligations.MovCopiesTheOtherRegister : Prop :=
  ∀ (sel : Byte) (s : State), encode (.mov sel) = [0x10, sel] ∧
    (s.pointer.toNat + 2 ≤ 0xFFFF → ∃ t, exec (.mov sel) s = .next t ∧
      (sel = 0x00 → t.x = s.y ∧ t.y = s.y) ∧ (sel ≠ 0x00 → t.y = s.x ∧ t.x = s.x) ∧
      t.carry = s.carry ∧ SameBytes s t ∧ EndsStepAt s t (s.pointer.toNat + 2)) ∧
    (0xFFFF < s.pointer.toNat + 2 → exec (.mov sel) s = .next (s.faulted .addressOutOfRange))

/-- R142, LOD: the selected register takes the big-endian word at the absolute address; at 0xFFFF, or where the next
address does not fit, AddressOutOfRange and no register changes (the spec's decisions D5, D7). -/
def Obligations.LodLoadsTheWordAtItsAddress : Prop :=
  ∀ (sel : Byte) (addr : Word) (s : State),
    encode (.lod sel addr) = [0x11, sel, BitVec.ofNat 8 (addr.toNat / 256), BitVec.ofNat 8 addr.toNat] ∧
    (addr ≠ 0xFFFF → s.pointer.toNat + 4 ≤ 0xFFFF → ∃ t, exec (.lod sel addr) s = .next t ∧
      SelectedBecomes sel (wordAt s addr.toNat) s t ∧ t.carry = s.carry ∧ SameBytes s t ∧
      EndsStepAt s t (s.pointer.toNat + 4)) ∧
    (addr = 0xFFFF ∨ 0xFFFF < s.pointer.toNat + 4 →
      exec (.lod sel addr) s = .next (s.faulted .addressOutOfRange))

/-- R143, STO: the two bytes at the absolute address become the selected register's value, high byte first, every
other byte, the registers and C stay; at 0xFFFF, or where the next address does not fit, AddressOutOfRange and no
byte is written (the spec's decisions D6, D7). -/
def Obligations.StoStoresTheWordAtItsAddress : Prop :=
  ∀ (sel : Byte) (addr : Word) (s : State),
    encode (.sto sel addr) = [0x12, sel, BitVec.ofNat 8 (addr.toNat / 256), BitVec.ofNat 8 addr.toNat] ∧
    (Memory.wf s.mem = true → addr ≠ 0xFFFF → s.pointer.toNat + 4 ≤ 0xFFFF →
      ∃ t, exec (.sto sel addr) s = .next t ∧ StoresWord s t addr.toNat (selectedValue sel s) ∧
        SameRegs s t ∧ EndsStepAt s t (s.pointer.toNat + 4)) ∧
    (addr = 0xFFFF ∨ 0xFFFF < s.pointer.toNat + 4 →
      exec (.sto sel addr) s = .next (s.faulted .addressOutOfRange))

/-- R144, LDR: the selected register takes the big-endian word at X, the X of before the step, also when X is the
destination; with X = 0xFFFF, or where the next address does not fit, AddressOutOfRange (the spec's decisions D5,
D7). -/
def Obligations.LdrLoadsTheWordAtX : Prop :=
  ∀ (sel : Byte) (s : State), encode (.ldr sel) = [0x13, sel] ∧
    (s.x ≠ 0xFFFF → s.pointer.toNat + 2 ≤ 0xFFFF → ∃ t, exec (.ldr sel) s = .next t ∧
      SelectedBecomes sel (wordAt s s.x.toNat) s t ∧ t.carry = s.carry ∧ SameBytes s t ∧
      EndsStepAt s t (s.pointer.toNat + 2)) ∧
    (s.x = 0xFFFF ∨ 0xFFFF < s.pointer.toNat + 2 →
      exec (.ldr sel) s = .next (s.faulted .addressOutOfRange))

/-- R145, STR: the two bytes at X become the selected register's value, high byte first, the data X itself when the
selector is 0x00; with X = 0xFFFF, or where the next address does not fit, AddressOutOfRange and no byte is written
(the spec's decisions D6, D7). -/
def Obligations.StrStoresTheWordAtX : Prop :=
  ∀ (sel : Byte) (s : State), encode (.str sel) = [0x14, sel] ∧
    (Memory.wf s.mem = true → s.x ≠ 0xFFFF → s.pointer.toNat + 2 ≤ 0xFFFF →
      ∃ t, exec (.str sel) s = .next t ∧ StoresWord s t s.x.toNat (selectedValue sel s) ∧
        SameRegs s t ∧ EndsStepAt s t (s.pointer.toNat + 2)) ∧
    (s.x = 0xFFFF ∨ 0xFFFF < s.pointer.toNat + 2 →
      exec (.str sel) s = .next (s.faulted .addressOutOfRange))

/-- R146, SWP: X and Y exchange their old values; two SWPs in a row restore both. -/
def Obligations.SwpExchangesTheRegisters : Prop :=
  ∀ s : State, encode .swp = [0x15] ∧
    (s.pointer.toNat + 1 ≤ 0xFFFF → ∃ t, exec .swp s = .next t ∧ t.x = s.y ∧ t.y = s.x ∧
      t.carry = s.carry ∧ SameBytes s t ∧ EndsStepAt s t (s.pointer.toNat + 1)) ∧
    (s.pointer.toNat + 2 ≤ 0xFFFF → ∃ t u, exec .swp s = .next t ∧ exec .swp t.caughtUp = .next u ∧
      SameRegs s u ∧ SameBytes s u) ∧
    (s.pointer = 0xFFFF → exec .swp s = .next (s.faulted .addressOutOfRange))

/-- R147, LDI: the selected register takes the literal. -/
def Obligations.LdiLoadsItsLiteral : Prop :=
  ∀ (sel : Byte) (imm : Word) (s : State),
    encode (.ldi sel imm) = [0x16, sel, BitVec.ofNat 8 (imm.toNat / 256), BitVec.ofNat 8 imm.toNat] ∧
    (s.pointer.toNat + 4 ≤ 0xFFFF → ∃ t, exec (.ldi sel imm) s = .next t ∧
      SelectedBecomes sel imm.toNat s t ∧ t.carry = s.carry ∧ SameBytes s t ∧
      EndsStepAt s t (s.pointer.toNat + 4)) ∧
    (0xFFFF < s.pointer.toNat + 4 → exec (.ldi sel imm) s = .next (s.faulted .addressOutOfRange))

/-! ## Arithmetic (spec/42_arithmetic.md) -/

/-- R161, ADD: X <- (X + Y) mod 65536, C true exactly on a carry out, written on every ADD (the spec's decision
D2). -/
def Obligations.AddAddsAndWritesTheCarry : Prop :=
  ∀ s : State, encode .add = [0x20] ∧
    (s.pointer.toNat + 1 ≤ 0xFFFF → ∃ t, exec .add s = .next t ∧
      t.x.toNat = (s.x.toNat + s.y.toNat) % 65536 ∧
      (t.carry = true ↔ s.x.toNat + s.y.toNat > 0xFFFF) ∧ t.y = s.y ∧ SameBytes s t ∧
      EndsStepAt s t (s.pointer.toNat + 1)) ∧
    (s.pointer = 0xFFFF → exec .add s = .next (s.faulted .addressOutOfRange))

/-- R162, SUB: X <- (X - Y) mod 65536, C true exactly on a borrow, X < Y before the step, written on every SUB (the
spec's decision D1, which the source leaves open). -/
def Obligations.SubSubtractsAndWritesTheBorrow : Prop :=
  ∀ s : State, encode .sub = [0x21] ∧
    (s.pointer.toNat + 1 ≤ 0xFFFF → ∃ t, exec .sub s = .next t ∧
      (t.x.toNat : Int) = ((s.x.toNat : Int) - s.y.toNat) % 65536 ∧
      (t.carry = true ↔ s.x.toNat < s.y.toNat) ∧ t.y = s.y ∧ SameBytes s t ∧
      EndsStepAt s t (s.pointer.toNat + 1)) ∧
    (s.pointer = 0xFFFF → exec .sub s = .next (s.faulted .addressOutOfRange))

/-- R163, MUL: X takes the low 16 bits of the product and C keeps its value, even when the product does not fit (the
spec's decision D4). -/
def Obligations.MulKeepsTheLowWordAndTheCarry : Prop :=
  ∀ s : State, encode .mul = [0x22] ∧
    (s.pointer.toNat + 1 ≤ 0xFFFF → ∃ t, exec .mul s = .next t ∧
      t.x.toNat = (s.x.toNat * s.y.toNat) % 65536 ∧ t.y = s.y ∧ t.carry = s.carry ∧ SameBytes s t ∧
      EndsStepAt s t (s.pointer.toNat + 1)) ∧
    (s.pointer = 0xFFFF → exec .mul s = .next (s.faulted .addressOutOfRange))

/-- R164, R241, DIV: DivisionByZero when Y = 0, whatever X is and wherever it stands (R245, the spec's decision D8);
else the unsigned quotient, C kept (D4). -/
def Obligations.DivDividesOrTraps : Prop :=
  ∀ s : State, encode .div = [0x23] ∧
    (s.y = 0 → exec .div s = .next (s.faulted .divisionByZero)) ∧
    (s.y ≠ 0 → s.pointer.toNat + 1 ≤ 0xFFFF → ∃ t, exec .div s = .next t ∧
      t.x.toNat = s.x.toNat / s.y.toNat ∧ t.y = s.y ∧ t.carry = s.carry ∧ SameBytes s t ∧
      EndsStepAt s t (s.pointer.toNat + 1)) ∧
    (s.y ≠ 0 → s.pointer = 0xFFFF → exec .div s = .next (s.faulted .addressOutOfRange))

/-- R165, R242, MOD: ModuloByZero when Y = 0, whatever X is and wherever it stands (R245, the spec's decision D8);
else the remainder, C kept (D4). -/
def Obligations.ModTakesTheRemainderOrTraps : Prop :=
  ∀ s : State, encode .mod = [0x24] ∧
    (s.y = 0 → exec .mod s = .next (s.faulted .moduloByZero)) ∧
    (s.y ≠ 0 → s.pointer.toNat + 1 ≤ 0xFFFF → ∃ t, exec .mod s = .next t ∧
      t.x.toNat = s.x.toNat % s.y.toNat ∧ t.y = s.y ∧ t.carry = s.carry ∧ SameBytes s t ∧
      EndsStepAt s t (s.pointer.toNat + 1)) ∧
    (s.y ≠ 0 → s.pointer = 0xFFFF → exec .mod s = .next (s.faulted .addressOutOfRange))

/-- R166: ADD then SUB with the same Y gives X back, for all X and Y, and leaves C as the ADD wrote it; the spec
derives it from R161 and R162 (decisions D1, D2). -/
def Obligations.AddThenSubRestoresX : Prop :=
  ∀ s : State, s.pointer.toNat + 2 ≤ 0xFFFF → ∃ t u, exec .add s = .next t ∧
    exec .sub t.caughtUp = .next u ∧ u.x = s.x ∧ u.y = s.y ∧ u.carry = t.carry ∧
    (u.carry = true ↔ s.x.toNat + s.y.toNat > 0xFFFF)

/-- R167: quotient and remainder of the same operands satisfy the division identity; the spec derives it from R164
and R165. -/
def Obligations.QuotientAndRemainderFit : Prop :=
  ∀ s : State, s.y ≠ 0 → s.pointer.toNat + 1 ≤ 0xFFFF → ∃ q r, exec .div s = .next q ∧
    exec .mod s = .next r ∧ q.x.toNat * s.y.toNat + r.x.toNat = s.x.toNat ∧
    r.x.toNat < s.y.toNat ∧ q.x.toNat ≤ s.x.toNat

/-! ## Jumps and flags (spec/43_jumps.md, spec/44_flag_ops.md) -/

/-- R181, JMP: TP becomes the operand and nothing else changes; a JMP to its own address leaves TP = P and is
executed again by the next commit, changing no state; one whose operand bytes do not fit below the top raises
AddressOutOfRange. -/
def Obligations.JmpGoesToItsOperand : Prop :=
  ∀ (addr : Word) (s : State),
    encode (.jmp addr) = [0x30, BitVec.ofNat 8 (addr.toNat / 256), BitVec.ofNat 8 addr.toNat] ∧
    ∃ t, exec (.jmp addr) s = .next t ∧ EndsStepAt s t addr.toNat ∧ SameBytes s t ∧ SameRegs s t ∧
      (addr = s.pointer → t.targetPointer = t.pointer) ∧ NeedsItsOperand .jmp s ∧
      (s.Ready → addr = s.pointer → Holds s s.pointer (.jmp addr) →
        ∃ u, commit s = .next u ∧ u = { s with outcome := some .stepped } ∧ commit u = .next u)

/-- R182, R183, JZ and JNZ: taken exactly when X is zero, and exactly when it is not; where the operand bytes do not
fit, both raise AddressOutOfRange. -/
def Obligations.JzAndJnzTestX : Prop :=
  ∀ (addr : Word) (s : State),
    encode (.jz addr) = [0x31, BitVec.ofNat 8 (addr.toNat / 256), BitVec.ofNat 8 addr.toNat] ∧
    encode (.jnz addr) = [0x32, BitVec.ofNat 8 (addr.toNat / 256), BitVec.ofNat 8 addr.toNat] ∧
    JumpsWhen (.jz addr) addr (s.x.toNat = 0) s ∧ JumpsWhen (.jnz addr) addr (s.x.toNat ≠ 0) s ∧
    NeedsItsOperand .jz s ∧ NeedsItsOperand .jnz s

/-- R184, R185, JC and JNC: taken exactly when C is true, and exactly when it is false; where the operand bytes do
not fit, both raise AddressOutOfRange. -/
def Obligations.JcAndJncTestTheCarry : Prop :=
  ∀ (addr : Word) (s : State),
    encode (.jc addr) = [0x33, BitVec.ofNat 8 (addr.toNat / 256), BitVec.ofNat 8 addr.toNat] ∧
    encode (.jnc addr) = [0x34, BitVec.ofNat 8 (addr.toNat / 256), BitVec.ofNat 8 addr.toNat] ∧
    JumpsWhen (.jc addr) addr (s.carry = true) s ∧ JumpsWhen (.jnc addr) addr (s.carry = false) s ∧
    NeedsItsOperand .jc s ∧ NeedsItsOperand .jnc s

/-- R186, R187, JGE and JL: the unsigned comparison of X with Y (the spec's decision D3), exactly one of the two
taken. -/
def Obligations.JgeAndJlCompareUnsigned : Prop :=
  ∀ (addr : Word) (s : State),
    encode (.jge addr) = [0x35, BitVec.ofNat 8 (addr.toNat / 256), BitVec.ofNat 8 addr.toNat] ∧
    encode (.jl addr) = [0x36, BitVec.ofNat 8 (addr.toNat / 256), BitVec.ofNat 8 addr.toNat] ∧
    JumpsWhen (.jge addr) addr (s.x.toNat ≥ s.y.toNat) s ∧ JumpsWhen (.jl addr) addr (s.x.toNat < s.y.toNat) s ∧
    NeedsItsOperand .jge s ∧ NeedsItsOperand .jl s

/-- R200, R201, SCF and CCF: C becomes true, C becomes false (it is not complemented), and nothing else changes; at
0xFFFF AddressOutOfRange, and C is not written. -/
def Obligations.ScfSetsAndCcfClearsTheCarry : Prop :=
  ∀ s : State, encode .scf = [0x40] ∧ encode .ccf = [0x41] ∧
    (s.pointer.toNat + 1 ≤ 0xFFFF → ∃ t u, exec .scf s = .next t ∧ exec .ccf s = .next u ∧
      t.carry = true ∧ u.carry = false ∧ t.x = s.x ∧ t.y = s.y ∧ u.x = s.x ∧ u.y = s.y ∧
      SameBytes s t ∧ SameBytes s u ∧ EndsStepAt s t (s.pointer.toNat + 1) ∧
      EndsStepAt s u (s.pointer.toNat + 1)) ∧
    (s.pointer = 0xFFFF → exec .scf s = .next (s.faulted .addressOutOfRange) ∧
      exec .ccf s = .next (s.faulted .addressOutOfRange))

/-- R202: SCF followed by JC is an unconditional jump; CCF followed by JC never jumps; the spec derives it from
R184, R200 and R201. -/
def Obligations.ScfThenJcJumpsAndCcfThenJcDoesNot : Prop :=
  ∀ (addr : Word) (s : State), s.pointer.toNat + 4 ≤ 0xFFFF → ∃ t u t' u',
    exec .scf s = .next t ∧ exec (.jc addr) t.caughtUp = .next u ∧ u.targetPointer = addr ∧
    exec .ccf s = .next t' ∧ exec (.jc addr) t'.caughtUp = .next u' ∧
    u'.targetPointer.toNat = s.pointer.toNat + 4

/-- R28: C is written only by ADD, SUB, SCF and CCF; it resets to false; no request but reset writes it. -/
def Obligations.OnlyFourInstructionsWriteTheCarry : Prop :=
  (∀ (i : Instr) (s t : State), exec i s = .next t → i ∉ [Instr.add, .sub, .scf, .ccf] →
    t.carry = s.carry) ∧
  State.reset.carry = false ∧
  (∀ (s : State) (r : Request), (∀ image, r ≠ .reset image) → (applyRequest s r).carry = s.carry)

/-! ## The step (spec/40_step_and_control.md, spec/60_exceptions.md) -/

/-- A step runs the decoded instruction (R123, R284): with any input of the schedule that asserts commit, after the
requests and the scan of the tick, when a step may be taken and the bytes at P decode to `i`, the tick is exec of
`i`; and with nothing scheduled the pointer catches up first, so it is the instruction at TP (log entry 1). -/
def Obligations.StepRunsTheDecodedInstruction : Prop :=
  (∀ (s : State) (inp : TickInput) (later : List TickInput) (i : Instr) (rest : List Byte),
    s.schedule = inp :: later → inp.commit = true →
    (applyRequests { s with schedule := later } inp.requests).Ready →
    decode (fetchBytes (applyRequests { s with schedule := later } inp.requests).mem
      (applyRequests { s with schedule := later } inp.requests).pointer) = .ok (i, rest) →
    step s = exec i (scan (applyRequests { s with schedule := later } inp.requests))) ∧
  (∀ (s : State) (i : Instr) (rest : List Byte), s.schedule = [] → s.fault = none →
    decode (fetchBytes s.mem s.targetPointer) = .ok (i, rest) → step s = exec i (scan s.caughtUp))

/-- R123, R124: when a step may be taken and the bytes of `i` stand at P, all of them in the address space, the step
is exec of `i` on the state before it, whatever stands after those bytes. -/
def Obligations.CommitExecutesTheInstructionAtP : Prop :=
  ∀ (s : State) (i : Instr), s.Ready → Holds s s.pointer i → commit s = exec i s

/-- R122: a commit causes a step exactly when P = TP and fault = None; otherwise its outcome is NoStep and it
changes nothing (the spec's decision D24). -/
def Obligations.CommitStepsExactlyWhenReady : Prop :=
  ∀ s : State, ∃ t, commit s = .next t ∧ (t.outcome = some .noStep ↔ ¬s.Ready) ∧
    (¬s.Ready → t = { s with outcome := some .noStep })

/-- R125: an instruction one of whose operand bytes would lie above 0xFFFF raises AddressOutOfRange, whatever the
instruction and the registers are; those are exactly the placements the rule lists. -/
def Obligations.OperandBytesAboveTheTopFault : Prop :=
  (∀ (s : State) (op : Op), s.Ready → lookup (readByte s.mem s.pointer.toNat) = some op →
    0xFFFF < s.pointer.toNat + op.length - 1 → commit s = .next (s.faulted .addressOutOfRange)) ∧
  (∀ (op : Op) (p : Word), 0xFFFF < p.toNat + op.length - 1 ↔
    (op.length = 2 ∧ p = 0xFFFF) ∨ (op.length = 3 ∧ 0xFFFE ≤ p.toNat) ∨ (op.length = 4 ∧ 0xFFFD ≤ p.toNat))

/-- R87, R126: on an undefined opcode the step changes no state and its outcome is UnknownOpcode, at every address;
the next commit meets the same byte and has the same outcome. -/
def Obligations.UnknownOpcodeChangesNothing : Prop :=
  ∀ s : State, s.Ready → undefinedOpcode (readByte s.mem s.pointer.toNat) = true →
    ∃ t, commit s = .next t ∧ t = { s with outcome := some .unknownOpcode } ∧ commit t = .next t

/-- R129, R246: a step with any outcome but Stepped leaves X, Y, C, memory and both pointers as they were, and the
latch too unless the outcome is Fault(E), when the latch holds E (the spec's decisions D6, D9). -/
def Obligations.StepsAreAllOrNothing : Prop :=
  ∀ s t : State, commit s = .next t → t.outcome ≠ some .stepped → AgreeArch s t ∧
    (∀ e, t.outcome = some (.fault e) → t.fault = some e) ∧
    ((∀ e, t.outcome ≠ some (.fault e)) → t.fault = s.fault)

/-- R25, R66, R127: the engine never writes P or a tag, and writes TP only when the outcome is Stepped. -/
def Obligations.EngineNeverWritesPointerOrTags : Prop :=
  ∀ s t : State, commit s = .next t → t.pointer = s.pointer ∧ t.tags = s.tags ∧
    t.schedule = s.schedule ∧ t.scans = s.scans ∧
    (t.outcome ≠ some .stepped → t.targetPointer = s.targetPointer)

/-- R27: after a step with outcome Stepped, TP is P plus the instruction's length, or, for a jump, its operand. -/
def Obligations.NextAddressIsSequentialOrTheOperand : Prop :=
  ∀ (i : Instr) (s t : State), exec i s = .next t → t.outcome = some .stepped →
    t.targetPointer.toNat = s.pointer.toNat + i.op.length ∨
    (i.op.format = .a ∧ i.operandBytes = [hiByte t.targetPointer, loByte t.targetPointer])

/-- R32, R55: no instruction but STO and STR changes memory. -/
def Obligations.OnlyStoAndStrWriteMemory : Prop :=
  ∀ (i : Instr) (s t : State), exec i s = .next t → i.op ≠ .sto → i.op ≠ .str → t.mem = s.mem

/-- R189, R243, R245: at 0xFFFF an HLT halts, an undefined opcode is UnknownOpcode, and every other opcode faults:
with AddressOutOfRange, but for DIV and MOD with Y = 0, whose own fault comes first (the spec's decisions D7,
D8). -/
def Obligations.OnlyHltAndUnknownOpcodesAreSafeAtTheTop : Prop :=
  ∀ s : State, s.Ready → s.pointer = 0xFFFF →
    (readByte s.mem 0xFFFF = 0x01 → commit s = .next { s with outcome := some .halted }) ∧
    (undefinedOpcode (readByte s.mem 0xFFFF) = true →
      commit s = .next { s with outcome := some .unknownOpcode }) ∧
    (readByte s.mem 0xFFFF ≠ 0x01 → undefinedOpcode (readByte s.mem 0xFFFF) = false →
      commit s = .next (s.faulted
        (if readByte s.mem 0xFFFF = 0x23 ∧ s.y = 0 then .divisionByZero
         else if readByte s.mem 0xFFFF = 0x24 ∧ s.y = 0 then .moduloByZero
         else .addressOutOfRange)))

/-- R247: while the latch holds a fault, a tick without a reset request only applies its
requests and scans; a commit is NoStep, and the latch stays (the spec's decision D9). That a tick without a commit
leaves the outcome none is the model's choice, log entry 3. -/
def Obligations.FaultedMachineStaysHalted : Prop :=
  ∀ (s : State) (e : Exc) (inp : TickInput), s.fault = some e →
    (∀ image, Request.reset image ∉ inp.requests) → ∃ t, tick s inp = .next t ∧ t.fault = some e ∧
      AgreeArch (applyRequests s inp.requests) t ∧ t.tags = (scan (applyRequests s inp.requests)).tags ∧
      (inp.commit = true → t.outcome = some .noStep) ∧ (inp.commit = false → t.outcome = none)

/-- Every step of the model answers a next state: the machine's faults are states it goes on from. The model's
choice of form, log entry 5. -/
def Obligations.EveryStepAnswersANextState : Prop :=
  ∀ s : State, ∃ t, step s = .next t

/-- With nothing scheduled and no fault, a tick takes a step at what was TP. The model's choice, log entry 1: the
environment is then the Stepper's turbo mode. -/
def Obligations.UnscheduledTickTakesAStep : Prop :=
  ∀ s : State, s.schedule = [] → s.fault = none → ∃ t, step s = .next t ∧ t.pointer = s.targetPointer ∧
    t.outcome ≠ none ∧ t.outcome ≠ some .noStep

/-! ## Memory (spec/20_memory.md) -/

/-- R51, R53: a word stored at `a` is loaded back from `a`; its two bytes are the high and the low one; a load at `a
+ 1` sees the low byte first (R53 is the spec's derivation from R51). -/
def Obligations.StoredWordIsLoadedBack : Prop :=
  ∀ (m n : Memory) (a v : Word), Memory.wf m = true → writeWord m a v = some n →
    readWord n a = some v ∧ (readByte n a.toNat).toNat = v.toNat / 256 ∧
    (readByte n (a.toNat + 1)).toNat = v.toNat % 256 ∧
    (a ≠ 0xFFFE → ∃ w, readWord n (a + 1) = some w ∧
      w.toNat = 256 * (v.toNat % 256) + (readByte m (a.toNat + 2)).toNat)

/-- R64 (the spec's derivation): a store is seen by the very next fetch. A STO that writes the two bytes after
itself makes the next step execute the one-byte instruction whose opcode is the high byte stored. -/
def Obligations.StoreIsSeenByTheNextFetch : Prop :=
  ∀ (s : State) (sel : Byte) (i : Instr), s.Ready → Memory.wf s.mem = true →
    s.pointer.toNat + 5 ≤ 0xFFFF → Holds s s.pointer (.sto sel (s.pointer + 4)) →
    encode i = [BitVec.ofNat 8 (selectedValue sel s / 256)] →
    ∃ t, commit s = .next t ∧ commit t.caughtUp = exec i t.caughtUp

/-! ## The scanner (spec/45_tagging_scanner.md) -/

/-- R211: a scan changes tags only, and for every state and every choice, a step after a scan and a step without it
agree on X, Y, C, P, TP, fault, every value and the outcome. -/
def Obligations.ScanHasNoEffectOnTheStep : Prop :=
  ∀ (choice : Nat → Bool) (s : State), { scanWith choice s with tags := s.tags } = s ∧
    ∃ t t', commit s = .next t ∧ commit (scanWith choice s) = .next t' ∧ AgreeButTags t t'

/-- R34, R211, over whole ticks: two states that differ only in their tags (and in how many scans were made) go to
states that differ only there: no program, request or step can observe a tag or a branch choice. -/
def Obligations.TagsAreNeverObserved : Prop :=
  ∀ s s' t : State, AgreeButTags s s' → step s = .next t →
    ∃ t', step s' = .next t' ∧ AgreeButTags t t'

/-- R221 (a), (b), (c): for every choice, a scan leaves P and TP marked and at most 401 cells marked, none of them
above 0xFFFF (the spec's derivation). -/
def Obligations.ScanMarksBothPointersAndFewCells : Prop :=
  ∀ (choice : Nat → Bool) (s : State),
    readTag (scanWith choice s).tags s.pointer.toNat ≠ .unknown ∧
    readTag (scanWith choice s).tags s.targetPointer.toNat ≠ .unknown ∧
    (scanWith choice s).tags.length ≤ 401 ∧
    ∀ a, 0xFFFF < a → readTag (scanWith choice s).tags a = .unknown

/-- R212, R213, R217: where TP holds HLT or an undefined opcode, the scan marks the cells at P and TP Instruction
and every other cell is Unknown, whatever the tags were before (the spec's decisions D13, D16). -/
def Obligations.ScanStopsAtHltAndUnknownOpcodes : Prop :=
  ∀ (choice : Nat → Bool) (s : State),
    (readByte s.mem s.targetPointer.toNat = 0x01 ∨
      undefinedOpcode (readByte s.mem s.targetPointer.toNat) = true) →
    ∀ a, readTag (scanWith choice s).tags a =
      if a = s.pointer.toNat ∨ a = s.targetPointer.toNat then .instruction else .unknown

/-- R214 to R219, the tag of every cell after a scan whose walk is at most two instructions long: TP holds a defined
opcode other than HLT, and where the scan goes next, if it goes on, it stops. The operand bytes within the address
space carry the tags R215 writes out for that opcode, the cell visited next Instruction, also where it is one of
those operand bytes, and the cells at TP and P Instruction, P's unless it is an operand byte. The bit drawn at a
jump decides which cell is next (decisions D13 to D16). -/
def Obligations.ScanTagsTheOperandsAndTheNextVisit : Prop :=
  ∀ (choice : Nat → Bool) (s : State) (op : Op), lookup (readByte s.mem s.targetPointer.toNat) = some op →
    op ≠ .hlt →
    (lastByteAtTp op s ≤ 0xFFFF → nextVisit op (choice 0) s ≤ 0xFFFF →
      StopsScan (readByte s.mem (nextVisit op (choice 0) s))) →
    ∀ a, readTag (scanWith choice s).tags a =
      if lastByteAtTp op s ≤ 0xFFFF ∧ nextVisit op (choice 0) s ≤ 0xFFFF ∧ a = nextVisit op (choice 0) s then
        .instruction
      else if s.targetPointer.toNat < a ∧ a ≤ lastByteAtTp op s ∧ a ≤ 0xFFFF then
        (tagsOfOperands op).getD (a - s.targetPointer.toNat - 1) .unknown
      else if a = s.pointer.toNat ∨ a = s.targetPointer.toNat then .instruction
      else .unknown

/-- R7, R214, R218: over NOPs a scan visits 100 instructions and no more, and none above 0xFFFF. -/
def Obligations.ScanVisitsAtMostAHundredInstructions : Prop :=
  ∀ (choice : Nat → Bool) (s : State),
    (∀ k, k < 100 → s.targetPointer.toNat + k ≤ 0xFFFF → readByte s.mem (s.targetPointer.toNat + k) = 0x00) →
    ∀ a, readTag (scanWith choice s).tags a =
      if a = s.pointer.toNat ∨
          (s.targetPointer.toNat ≤ a ∧ a < s.targetPointer.toNat + 100 ∧ a ≤ 0xFFFF) then .instruction
      else .unknown

/-- R214, R216: a fresh bit is drawn at each jump met. At a JMP to itself the scan comes back while the bits are
true, so the cell after the JMP is tagged exactly when one of the first 99 bits is false: the hundredth visit is the
last (decision D14). -/
def Obligations.ScanDrawsAFreshBitAtEachJump : Prop :=
  ∀ (choice : Nat → Bool) (s : State), Holds s s.targetPointer (.jmp s.targetPointer) →
    s.targetPointer.toNat + 3 ≤ 0xFFFF → s.pointer.toNat ≠ s.targetPointer.toNat + 3 →
    StopsScan (readByte s.mem (s.targetPointer.toNat + 3)) →
    (readTag (scanWith choice s).tags (s.targetPointer.toNat + 3) = .instruction ↔ ∃ j < 99, choice j = false)

/-! ## Reset, requests, invariants (spec/10_state.md, spec/70_reset_and_hazards.md) -/

/-- R37, R280: reset sets every piece of the block's state to its reset value, memory to the image followed by zeros
(the registers' values are the spec's decision D10). -/
def Obligations.ResetSetsEveryPieceOfState : Prop :=
  ∀ (s : State) (image : List Byte), image.length ≤ 65536 → ∃ t, applyRequest s (.reset image) = t ∧
    (∀ a, (h : a < image.length) → readByte t.mem a = image[a]) ∧
    (∀ a, image.length ≤ a → readByte t.mem a = 0x00) ∧ (∀ a, readTag t.tags a = .unknown) ∧
    t.x = 0 ∧ t.y = 0 ∧ t.carry = false ∧ t.pointer = 0 ∧ t.targetPointer = 0 ∧ t.fault = none

/-- R282: an image longer than 65536 bytes is refused and the state is unchanged; with no source file, or when
assembly fails, the image is empty (the spec's decision D22). -/
def Obligations.OversizeImageIsRefused : Prop :=
  (∀ (s : State) (image : List Byte), 65536 < image.length → applyRequest s (.reset image) = s) ∧
  imageOf none = [] ∧
  (∀ (source : Text) (e : AsmError), assemble source = .error e → imageOf (some source) = [])

/-- R286 to R289: what each request of the environment writes, and that it writes nothing else (the spec's decisions
D18, D19). -/
def Obligations.RequestsWriteWhatTheyName : Prop :=
  ∀ (s : State) (a v : Word) (b : Byte), Memory.wf s.mem = true →
    (∃ m, applyRequest s (.editCell a b) = { s with mem := m } ∧ readByte m a.toNat = b ∧
      ∀ c, c ≠ a.toNat → readByte m c = readByte s.mem c) ∧
    applyRequest s (.editReg .x v) = { s with x := v } ∧
    applyRequest s (.editReg .y v) = { s with y := v } ∧
    applyRequest s (.editTp v) = { s with targetPointer := v } ∧
    applyRequest s .catchUp = { s with pointer := s.targetPointer } ∧
    (s.pointer = s.targetPointer → applyRequest s .catchUp = s)

/-- The invariant holds in the reset state, and in the state after any reset with an image that fits. -/
def Obligations.ResetStateMeetsTheInvariant : Prop :=
  State.reset.Inv ∧
    ∀ (s : State) (image : List Byte), image.length ≤ 65536 → (applyRequest s (.reset image)).Inv

/-- Every step, from every state that meets it, keeps the invariant: memory and tags stay canonical, each listing
only addresses 0x0000 to 0xFFFF, so that no step ever makes a cell that does not exist (R32, R50, R59). -/
def Obligations.EveryStepKeepsTheInvariant : Prop :=
  ∀ s t : State, s.Inv → step s = .next t → t.Inv

/-! ## Assembly language (spec/30_encoding.md R100 to R111) -/

/-- R111: the worked example of the assembler. -/
def Obligations.WorkedExampleAssembles : Prop :=
  assemble "LDI x 0012\nLDI y 0003\nADD\nHLT".toList =
    .ok [0x16, 0x00, 0x00, 0x12, 0x16, 0x01, 0x00, 0x03, 0x20, 0x01]

/-- R104, R106, R110: the source text of any sequence of instructions, written as R110 writes each, assembles to
their encodings, packed in order. -/
def Obligations.AssemblyOfWrittenProgramIsItsEncoding : Prop :=
  ∀ program : List Instr, assemble (sourceText program) = .ok (program.flatMap encode)
end

