-- ==== Sys2Proof/Laws/Decode.lean ====
section
/-! SUPPORT. The laws of the opcode table, of the byte order and of the two directions of the encoding, row by row. -/

namespace Sys2Proof

/-! ## Byte order -/

/-- A word is 256 times its high byte and its low byte (R8, R51). -/
theorem toNat_bytesToWord (hi lo : Byte) : (bytesToWord hi lo).toNat = 256 * hi.toNat + lo.toNat := by
  rw [bytesToWord, BitVec.toNat_append, ← Nat.shiftLeft_add_eq_or_of_lt lo.isLt, Nat.shiftLeft_eq]
  omega

theorem toNat_hiByte (w : Word) : (hiByte w).toNat = w.toNat / 256 := by
  have := w.isLt
  simp only [hiByte, BitVec.extractLsb'_toNat, Nat.shiftRight_eq_div_pow]
  omega

theorem toNat_loByte (w : Word) : (loByte w).toNat = w.toNat % 256 := by
  simp [loByte, BitVec.extractLsb'_toNat]

@[simp] theorem bytesToWord_hi_lo (w : Word) : bytesToWord (hiByte w) (loByte w) = w := by
  apply BitVec.eq_of_toNat_eq
  rw [toNat_bytesToWord, toNat_hiByte, toNat_loByte]
  omega

@[simp] theorem hiByte_bytesToWord (hi lo : Byte) : hiByte (bytesToWord hi lo) = hi := by
  have := lo.isLt
  apply BitVec.eq_of_toNat_eq
  rw [toNat_hiByte, toNat_bytesToWord]
  omega

@[simp] theorem loByte_bytesToWord (hi lo : Byte) : loByte (bytesToWord hi lo) = lo := by
  have := lo.isLt
  apply BitVec.eq_of_toNat_eq
  rw [toNat_loByte, toNat_bytesToWord]
  omega

/-! ## The opcode table -/

theorem lookup_opcode (op : Op) : lookup op.opcode = some op := by
  cases op <;> decide

theorem mem_all (op : Op) : op ∈ Op.all := by
  cases op <;> decide

theorem opcode_of_lookup {b : Byte} {op : Op} (h : lookup b = some op) : op.opcode = b := by
  have := List.find?_some h
  simpa using this

theorem lookup_eq_some {b : Byte} {op : Op} : lookup b = some op ↔ op.opcode = b :=
  ⟨opcode_of_lookup, fun h => h ▸ lookup_opcode op⟩

/-- The length of an operation is 1, 2, 3 or 4 (R82). -/
theorem length_bounds (op : Op) : 1 ≤ op.length ∧ op.length ≤ 4 := by
  cases op <;> decide

/-- The operand bytes of an instruction are as many as its operation's length says (R82). -/
theorem length_operandBytes (i : Instr) : i.operandBytes.length + 1 = i.op.length := by
  cases i <;> rfl

theorem length_encode (i : Instr) : (encode i).length = i.op.length := by
  rw [encode, List.length_cons, length_operandBytes]

/-! ## Decoding the operands -/

/-- Decoding the operand bytes of an instruction gives it back, with the bytes after it. -/
theorem decodeOperands_operandBytes (i : Instr) (rest : List Byte) :
    decodeOperands i.op (i.operandBytes ++ rest) = some (i, rest) := by
  cases i <;>
    simp [Instr.op, Instr.operandBytes, decodeOperands, takeSel, takeSelWord, takeWord]

/-- Whatever the operands decode to, it is of that operation and its operand bytes stood at the head. -/
theorem decodeOperands_sound {op : Op} {bytes rest : List Byte} {i : Instr}
    (h : decodeOperands op bytes = some (i, rest)) : i.op = op ∧ i.operandBytes ++ rest = bytes := by
  cases op <;> simp only [decodeOperands, takeSel, takeSelWord, takeWord] at h <;>
    (try split at h) <;> cases h <;> simp [Instr.op, Instr.operandBytes]

/-- Operands decode as soon as their bytes are there (R82). -/
theorem decodeOperands_isSome {op : Op} {bytes : List Byte} (h : op.length ≤ bytes.length + 1) :
    ∃ i rest, decodeOperands op bytes = some (i, rest) := by
  rcases bytes with _ | ⟨a, _ | ⟨b, _ | ⟨c, l⟩⟩⟩ <;> cases op <;>
    first
      | exact ⟨_, _, rfl⟩
      | (exfalso; revert h; simp [Op.length, Op.format, Op.descriptor, Format.operands, OperandKind.size])

/-- Operands do not decode when a byte of them is missing (R125). -/
theorem decodeOperands_none {op : Op} {bytes : List Byte} (h : bytes.length + 1 < op.length) :
    decodeOperands op bytes = none := by
  rcases bytes with _ | ⟨a, _ | ⟨b, _ | ⟨c, l⟩⟩⟩ <;> cases op <;>
    first
      | rfl
      | (exfalso; revert h; simp [Op.length, Op.format, Op.descriptor, Format.operands, OperandKind.size])

/-! ## Decoding -/

theorem decode_unknown {b : Byte} {rest : List Byte} (h : lookup b = none) :
    decode (b :: rest) = .error (.unknownOpcode b) := by
  simp only [decode, h]

theorem decode_truncated {b : Byte} {op : Op} {rest : List Byte} (h : lookup b = some op)
    (hl : rest.length + 1 < op.length) : decode (b :: rest) = .error (.truncated op) := by
  simp only [decode, h, decodeOperands_none hl]

theorem decode_ok {b : Byte} {op : Op} {rest : List Byte} (h : lookup b = some op)
    (hl : op.length ≤ rest.length + 1) : ∃ i r, decode (b :: rest) = .ok (i, r) ∧ i.op = op := by
  obtain ⟨i, r, hi⟩ := decodeOperands_isSome hl
  exact ⟨i, r, by simp only [decode, h, hi], (decodeOperands_sound hi).1⟩

end Sys2Proof
end

