-- ==== Sys2Proof/Laws/Memory.lean ====
section
/-! SUPPORT. The laws of the sparse tables, and of the memory and the tags built on them: a read after a write, the
canonical form kept, and canonical tables that read alike equal. -/

namespace Sys2Proof.Machine

section Sparse

variable {α : Type} [DecidableEq α] {d : α}

/-- Below its least address a canonical table reads the default. -/
theorem sparseRead_below {t : List (Nat × α)} {lo a : Nat} (h : sparseWf d lo t = true) (ha : a < lo) :
    sparseRead d t a = d := by
  induction t generalizing lo with
  | nil => rfl
  | cons p rest ih =>
    obtain ⟨b, v⟩ := p
    simp only [sparseWf, Bool.and_eq_true, decide_eq_true_eq] at h
    rw [sparseRead, if_neg (by omega)]
    exact ih h.2 (by omega)

/-- A canonical table is canonical from any lower address on. -/
theorem sparseWf_mono {t : List (Nat × α)} {lo lo' : Nat} (h : sparseWf d lo t = true) (hl : lo' ≤ lo) :
    sparseWf d lo' t = true := by
  cases t with
  | nil => rfl
  | cons p rest =>
    obtain ⟨b, v⟩ := p
    simp only [sparseWf, Bool.and_eq_true, decide_eq_true_eq] at h ⊢
    exact ⟨⟨by omega, h.1.2⟩, h.2⟩

/-- A write keeps the canonical form. -/
theorem sparseWrite_wf {t : List (Nat × α)} {lo a : Nat} {v : α} (h : sparseWf d lo t = true)
    (hlo : lo ≤ a) (ha : a ≤ Config.topAddress) : sparseWf d lo (sparseWrite d t a v) = true := by
  induction t generalizing lo with
  | nil =>
    rw [sparseWrite]
    split
    · rfl
    · next hv => simp [sparseWf, hlo, ha, hv]
  | cons p rest ih =>
    obtain ⟨b, u⟩ := p
    have h' := h
    simp only [sparseWf, Bool.and_eq_true, decide_eq_true_eq] at h
    obtain ⟨⟨h1, h2, h3⟩, h4⟩ := h
    rw [sparseWrite]
    split
    · next hab =>
      split
      · exact h'
      · next hv =>
        simp only [sparseWf, Bool.and_eq_true, decide_eq_true_eq]
        exact ⟨⟨hlo, ha, hv⟩, ⟨by omega, h2, h3⟩, h4⟩
    · split
      · next hab hb =>
        split
        · exact sparseWf_mono h4 (by omega)
        · next hv =>
          simp only [sparseWf, Bool.and_eq_true, decide_eq_true_eq]
          exact ⟨⟨hlo, ha, hv⟩, by rw [hb]; exact h4⟩
      · next hab hb =>
        simp only [sparseWf, Bool.and_eq_true, decide_eq_true_eq]
        exact ⟨⟨h1, h2, h3⟩, ih h4 (by omega)⟩

/-- A read at the address written gives the value written, in any table whose addresses rise. -/
theorem sparseRead_write_self {t : List (Nat × α)} {lo a : Nat} {v : α} (h : sparseWf d lo t = true) :
    sparseRead d (sparseWrite d t a v) a = v := by
  induction t generalizing lo with
  | nil =>
    rw [sparseWrite]
    split
    · next hv => rw [hv]; rfl
    · simp [sparseRead]
  | cons p rest ih =>
    obtain ⟨b, u⟩ := p
    have h' := h
    simp only [sparseWf, Bool.and_eq_true, decide_eq_true_eq] at h
    rw [sparseWrite]
    split
    · next hab =>
      split
      · next hv =>
        rw [hv, sparseRead, if_neg (by omega)]
        exact sparseRead_below h.2 (by omega)
      · simp [sparseRead]
    · split
      · next hab hb =>
        split
        · next hv => rw [hv]; exact sparseRead_below h.2 (by omega)
        · simp [sparseRead]
      · next hab hb =>
        rw [sparseRead, if_neg hb]
        exact ih h.2

omit [DecidableEq α] in
theorem sparseRead_cons_ne {b a : Nat} {u : α} {t : List (Nat × α)} (h : a ≠ b) :
    sparseRead d ((b, u) :: t) a = sparseRead d t a := by rw [sparseRead, if_neg h]

/-- A write leaves every other address alone, in any table. -/
theorem sparseRead_write_other {t : List (Nat × α)} {a c : Nat} {v : α} (hc : c ≠ a) :
    sparseRead d (sparseWrite d t a v) c = sparseRead d t c := by
  induction t with
  | nil =>
    rw [sparseWrite]
    split
    · rfl
    · exact sparseRead_cons_ne hc
  | cons p rest ih =>
    obtain ⟨b, u⟩ := p
    rw [sparseWrite]
    split
    · split
      · rfl
      · exact sparseRead_cons_ne hc
    · split
      · next hab hb =>
        subst hb
        split
        · exact (sparseRead_cons_ne hc).symm
        · rw [sparseRead_cons_ne hc, sparseRead_cons_ne hc]
      · rw [sparseRead, sparseRead, ih]

/-- Canonical tables that read alike at every address are equal. -/
theorem sparse_ext {t u : List (Nat × α)} {lo lo' : Nat} (ht : sparseWf d lo t = true)
    (hu : sparseWf d lo' u = true) (h : ∀ a, sparseRead d t a = sparseRead d u a) : t = u := by
  induction t generalizing u lo lo' with
  | nil =>
    cases u with
    | nil => rfl
    | cons p rest =>
      obtain ⟨b, v⟩ := p
      simp only [sparseWf, Bool.and_eq_true, decide_eq_true_eq] at hu
      have := h b
      simp only [sparseRead, if_true] at this
      exact absurd this.symm hu.1.2.2
  | cons p rest ih =>
    obtain ⟨b, v⟩ := p
    simp only [sparseWf, Bool.and_eq_true, decide_eq_true_eq] at ht
    cases u with
    | nil =>
      have := h b
      simp only [sparseRead, if_true] at this
      exact absurd this ht.1.2.2
    | cons q rest' =>
      obtain ⟨c, w⟩ := q
      simp only [sparseWf, Bool.and_eq_true, decide_eq_true_eq] at hu
      have hbc : b = c := by
        rcases Nat.lt_trichotomy b c with hlt | heq | hgt
        · have := h b
          rw [sparseRead, if_pos rfl, sparseRead, if_neg (by omega),
            sparseRead_below hu.2 (by omega)] at this
          exact absurd this ht.1.2.2
        · exact heq
        · have := h c
          rw [sparseRead, if_neg (by omega), sparseRead_below ht.2 (by omega), sparseRead,
            if_pos rfl] at this
          exact absurd this.symm hu.1.2.2
      subst hbc
      have hv : v = w := by
        have := h b
        simpa only [sparseRead, if_true] using this
      subst hv
      refine congrArg _ (ih ht.2 hu.2 fun a => ?_)
      by_cases hab : a ≤ b
      · rw [sparseRead_below ht.2 (by omega), sparseRead_below hu.2 (by omega)]
      · have := h a
        rwa [sparseRead_cons_ne (by omega), sparseRead_cons_ne (by omega)] at this

/-- A write lists at most one address more. -/
theorem sparseWrite_length {t : List (Nat × α)} {a : Nat} {v : α} :
    (sparseWrite d t a v).length ≤ t.length + 1 := by
  induction t with
  | nil => rw [sparseWrite]; split <;> simp
  | cons p rest ih =>
    obtain ⟨b, u⟩ := p
    rw [sparseWrite]
    split
    · split <;> simp
    · split
      · split <;> simp only [List.length_cons] <;> omega
      · simpa using ih

end Sparse

/-! ## Memory -/

theorem readByte_empty (a : Nat) : readByte [] a = 0x00 := rfl

theorem writeByte_wf {m : Memory} {a : Nat} {b : Byte} (h : Memory.wf m = true) (ha : a ≤ Config.topAddress) :
    Memory.wf (writeByte m a b) = true :=
  sparseWrite_wf h (Nat.zero_le a) ha

theorem readByte_writeByte_self {m : Memory} {a : Nat} {b : Byte} (h : Memory.wf m = true) :
    readByte (writeByte m a b) a = b :=
  sparseRead_write_self h

theorem readByte_writeByte_other {m : Memory} {a c : Nat} {b : Byte} (hc : c ≠ a) :
    readByte (writeByte m a b) c = readByte m c :=
  sparseRead_write_other hc

/-- Canonical memories that read alike are equal. -/
theorem memory_ext {m n : Memory} (hm : Memory.wf m = true) (hn : Memory.wf n = true)
    (h : ∀ a, readByte m a = readByte n a) : m = n :=
  sparse_ext hm hn h

theorem wordInRange_iff {a : Word} : wordInRange a = true ↔ a ≠ 0xFFFF := by
  simp only [wordInRange, Config.topAddress, ne_eq, ← BitVec.toNat_inj]
  have := a.isLt
  simp
  omega

/-- `MemRead` answers exactly when the word is in range (R10, R59). -/
theorem readWord_eq {m : Memory} {a : Word} (h : a ≠ 0xFFFF) :
    readWord m a = some (bytesToWord (readByte m a.toNat) (readByte m (a.toNat + 1))) := by
  rw [readWord, if_pos (wordInRange_iff.mpr h)]

theorem readWord_top {m : Memory} : readWord m 0xFFFF = none := rfl

/-- `MemWrite` answers exactly when the word is in range (R10, R59). -/
theorem writeWord_eq {m : Memory} {a v : Word} (h : a ≠ 0xFFFF) :
    writeWord m a v = some (writeByte (writeByte m a.toNat (hiByte v)) (a.toNat + 1) (loByte v)) := by
  rw [writeWord, if_pos (wordInRange_iff.mpr h)]

theorem writeWord_top {m : Memory} {v : Word} : writeWord m 0xFFFF v = none := rfl

/-- Everything a store of a word can do: the form is kept, the two bytes are the word's, the others stay. -/
theorem writeWord_spec {m n : Memory} {a v : Word} (h : writeWord m a v = some n) (hm : Memory.wf m = true) :
    Memory.wf n = true ∧ readByte n a.toNat = hiByte v ∧ readByte n (a.toNat + 1) = loByte v ∧
      ∀ b, b ≠ a.toNat → b ≠ a.toNat + 1 → readByte n b = readByte m b := by
  rw [writeWord] at h
  split at h
  · next hr =>
    simp only [wordInRange, decide_eq_true_eq] at hr
    cases h
    have h1 : Memory.wf (writeByte m a.toNat (hiByte v)) = true := writeByte_wf hm (by omega)
    refine ⟨writeByte_wf h1 hr, ?_, readByte_writeByte_self h1, fun b hb hb' => ?_⟩
    · rw [readByte_writeByte_other (by omega), readByte_writeByte_self hm]
    · rw [readByte_writeByte_other hb', readByte_writeByte_other hb]
  · cases h

/-- Loading bytes that fit keeps the form. -/
theorem loadBytes_wf {m : Memory} {a : Nat} {bs : List Byte} (hm : Memory.wf m = true)
    (h : a + bs.length ≤ Config.memSize) : Memory.wf (loadBytes m a bs) = true := by
  induction bs generalizing m a with
  | nil => exact hm
  | cons b rest ih =>
    rw [List.length_cons] at h
    exact ih (writeByte_wf hm (by simp only [Config.memSize, Config.topAddress] at *; omega)) (by omega)

/-- Loading leaves the addresses outside the bytes alone. -/
theorem readByte_loadBytes_other {m : Memory} {a c : Nat} {bs : List Byte}
    (hc : c < a ∨ a + bs.length ≤ c) : readByte (loadBytes m a bs) c = readByte m c := by
  induction bs generalizing m a with
  | nil => rfl
  | cons b rest ih =>
    rw [List.length_cons] at hc
    rw [loadBytes, ih (by omega), readByte_writeByte_other (by omega)]

/-- The `k`-th byte loaded stands at the `k`-th address (R282). -/
theorem readByte_loadBytes {m : Memory} {a k : Nat} {bs : List Byte} (hm : Memory.wf m = true)
    (h : a + bs.length ≤ Config.memSize) (hk : k < bs.length) :
    readByte (loadBytes m a bs) (a + k) = bs[k] := by
  induction bs generalizing m a k with
  | nil => exact absurd hk (Nat.not_lt_zero k)
  | cons b rest ih =>
    rw [List.length_cons] at h hk
    have hw : Memory.wf (writeByte m a b) = true :=
      writeByte_wf hm (by simp only [Config.memSize, Config.topAddress] at *; omega)
    rw [loadBytes]
    cases k with
    | zero =>
      rw [readByte_loadBytes_other (by omega)]
      exact readByte_writeByte_self hm
    | succ k =>
      rw [show a + (k + 1) = a + 1 + k by omega]
      exact ih hw (by omega) (by omega)

/-! ## Tags -/

theorem writeTag_wf {t : Tags} {a : Nat} {g : Tag} (h : Tags.wf t = true) (ha : a ≤ Config.topAddress) :
    Tags.wf (writeTag t a g) = true :=
  sparseWrite_wf h (Nat.zero_le a) ha

theorem readTag_writeTag_self {t : Tags} {a : Nat} {g : Tag} (h : Tags.wf t = true) :
    readTag (writeTag t a g) a = g :=
  sparseRead_write_self h

theorem readTag_writeTag_other {t : Tags} {a c : Nat} {g : Tag} (hc : c ≠ a) :
    readTag (writeTag t a g) c = readTag t c :=
  sparseRead_write_other hc

end Sys2Proof.Machine
end

