-- ==== Sys2Proof/Laws/State.lean ====
section
/-! SUPPORT. One lemma per field per update of the state, true by rfl, so that no proof unfolds a record update. -/

namespace Sys2Proof.Machine

variable (s : State) (v : Word) (r : Reg) (e : Exc) (choice : Nat → Bool)

/-! ## setReg (R9, R21) -/

@[simp] theorem setReg_x_x : (s.setReg .x v).x = v := rfl
@[simp] theorem setReg_x_y : (s.setReg .x v).y = s.y := rfl
@[simp] theorem setReg_y_y : (s.setReg .y v).y = v := rfl
@[simp] theorem setReg_y_x : (s.setReg .y v).x = s.x := rfl
@[simp] theorem setReg_mem : (s.setReg r v).mem = s.mem := by cases r <;> rfl
@[simp] theorem setReg_tags : (s.setReg r v).tags = s.tags := by cases r <;> rfl
@[simp] theorem setReg_carry : (s.setReg r v).carry = s.carry := by cases r <;> rfl
@[simp] theorem setReg_pointer : (s.setReg r v).pointer = s.pointer := by cases r <;> rfl
@[simp] theorem setReg_targetPointer : (s.setReg r v).targetPointer = s.targetPointer := by cases r <;> rfl
@[simp] theorem setReg_fault : (s.setReg r v).fault = s.fault := by cases r <;> rfl
@[simp] theorem setReg_outcome : (s.setReg r v).outcome = s.outcome := by cases r <;> rfl
@[simp] theorem setReg_schedule : (s.setReg r v).schedule = s.schedule := by cases r <;> rfl
@[simp] theorem setReg_scans : (s.setReg r v).scans = s.scans := by cases r <;> rfl
@[simp] theorem getReg_setReg_self : (s.setReg r v).getReg r = v := by cases r <;> rfl
@[simp] theorem getReg_setReg_other : (s.setReg r v).getReg r.other = s.getReg r.other := by cases r <;> rfl

/-! ## scanWith and scan (R211) -/

@[simp] theorem scanWith_tags : (scanWith choice s).tags = scanTags choice s := rfl
@[simp] theorem scanWith_mem : (scanWith choice s).mem = s.mem := rfl
@[simp] theorem scanWith_x : (scanWith choice s).x = s.x := rfl
@[simp] theorem scanWith_y : (scanWith choice s).y = s.y := rfl
@[simp] theorem scanWith_carry : (scanWith choice s).carry = s.carry := rfl
@[simp] theorem scanWith_pointer : (scanWith choice s).pointer = s.pointer := rfl
@[simp] theorem scanWith_targetPointer : (scanWith choice s).targetPointer = s.targetPointer := rfl
@[simp] theorem scanWith_fault : (scanWith choice s).fault = s.fault := rfl
@[simp] theorem scanWith_outcome : (scanWith choice s).outcome = s.outcome := rfl
@[simp] theorem scanWith_schedule : (scanWith choice s).schedule = s.schedule := rfl
@[simp] theorem scanWith_scans : (scanWith choice s).scans = s.scans := rfl
@[simp] theorem scan_tags : (scan s).tags = scanTags (Config.scanChoice s.scans) s := rfl
@[simp] theorem scan_mem : (scan s).mem = s.mem := rfl
@[simp] theorem scan_x : (scan s).x = s.x := rfl
@[simp] theorem scan_y : (scan s).y = s.y := rfl
@[simp] theorem scan_carry : (scan s).carry = s.carry := rfl
@[simp] theorem scan_pointer : (scan s).pointer = s.pointer := rfl
@[simp] theorem scan_targetPointer : (scan s).targetPointer = s.targetPointer := rfl
@[simp] theorem scan_fault : (scan s).fault = s.fault := rfl
@[simp] theorem scan_outcome : (scan s).outcome = s.outcome := rfl
@[simp] theorem scan_schedule : (scan s).schedule = s.schedule := rfl
@[simp] theorem scan_scans : (scan s).scans = s.scans + 1 := rfl

/-! ## faulted (R246) -/

@[simp] theorem faulted_mem : (s.faulted e).mem = s.mem := rfl
@[simp] theorem faulted_tags : (s.faulted e).tags = s.tags := rfl
@[simp] theorem faulted_x : (s.faulted e).x = s.x := rfl
@[simp] theorem faulted_y : (s.faulted e).y = s.y := rfl
@[simp] theorem faulted_carry : (s.faulted e).carry = s.carry := rfl
@[simp] theorem faulted_pointer : (s.faulted e).pointer = s.pointer := rfl
@[simp] theorem faulted_targetPointer : (s.faulted e).targetPointer = s.targetPointer := rfl
@[simp] theorem faulted_fault : (s.faulted e).fault = some e := rfl
@[simp] theorem faulted_outcome : (s.faulted e).outcome = some (.fault e) := rfl
@[simp] theorem faulted_schedule : (s.faulted e).schedule = s.schedule := rfl
@[simp] theorem faulted_scans : (s.faulted e).scans = s.scans := rfl

/-! ## caughtUp (R289) -/

@[simp] theorem caughtUp_mem : s.caughtUp.mem = s.mem := rfl
@[simp] theorem caughtUp_tags : s.caughtUp.tags = s.tags := rfl
@[simp] theorem caughtUp_x : s.caughtUp.x = s.x := rfl
@[simp] theorem caughtUp_y : s.caughtUp.y = s.y := rfl
@[simp] theorem caughtUp_carry : s.caughtUp.carry = s.carry := rfl
@[simp] theorem caughtUp_pointer : s.caughtUp.pointer = s.targetPointer := rfl
@[simp] theorem caughtUp_targetPointer : s.caughtUp.targetPointer = s.targetPointer := rfl
@[simp] theorem caughtUp_fault : s.caughtUp.fault = s.fault := rfl
@[simp] theorem caughtUp_outcome : s.caughtUp.outcome = s.outcome := rfl
@[simp] theorem caughtUp_schedule : s.caughtUp.schedule = s.schedule := rfl
@[simp] theorem caughtUp_scans : s.caughtUp.scans = s.scans := rfl

end Sys2Proof.Machine
end

