-- ==== Sys2Proof/Laws/Ops.lean ====
section
/-! SUPPORT. One lemma for each shared operation, saying once everything it can do: taking an exception, the end of a
step, the operand forms, reset, the requests. -/

namespace Sys2Proof.Machine

/-- Taking an exception (R246). -/
theorem raise_eq (s : State) (e : Exc) : raise s e = .next (s.faulted e) := rfl

/-- The end of a step, where the next address fits. -/
theorem writeback_fits {before after : State} {next : Nat} (h : next ≤ 0xFFFF) :
    writeback before after next =
      .next { after with targetPointer := BitVec.ofNat 16 next, outcome := some .stepped } := by
  rw [writeback, if_pos (by simpa [Config.topAddress] using h)]

/-- The end of a step, where the next address does not fit (R128). -/
theorem writeback_over {before after : State} {next : Nat} (h : 0xFFFF < next) :
    writeback before after next = .next (before.faulted .addressOutOfRange) := by
  rw [writeback, if_neg (by simp [Config.topAddress]; omega), raise_eq]

/-- Everything the end of a step can do. -/
theorem writeback_cases {before after t : State} {next : Nat} (h : writeback before after next = .next t) :
    (next ≤ 0xFFFF ∧
      t = { after with targetPointer := BitVec.ofNat 16 next, outcome := some .stepped }) ∨
    (0xFFFF < next ∧ t = before.faulted .addressOutOfRange) := by
  rcases Nat.lt_or_ge 0xFFFF next with hn | hn
  · rw [writeback_over hn] at h
    exact .inr ⟨hn, by injection h with h; exact h.symm⟩
  · rw [writeback_fits hn] at h
    exact .inl ⟨hn, by injection h with h; exact h.symm⟩

/-- The end of a step always answers a next state. -/
theorem writeback_next (before after : State) (next : Nat) : ∃ t, writeback before after next = .next t := by
  rcases Nat.lt_or_ge 0xFFFF next with hn | hn
  · exact ⟨_, writeback_over hn⟩
  · exact ⟨_, writeback_fits hn⟩

/-- The number a next address becomes in TP. -/
theorem toNat_nextAddress {n : Nat} (h : n ≤ 0xFFFF) : (BitVec.ofNat 16 n).toNat = n := by
  rw [BitVec.toNat_ofNat]
  omega

theorem selReg_zero : selReg 0x00 = .x := rfl

theorem selReg_ne {sel : Byte} (h : sel ≠ 0x00) : selReg sel = .y := if_neg h

theorem getReg_selReg (s : State) (sel : Byte) : (s.getReg (selReg sel)).toNat = selectedValue sel s := by
  unfold selectedValue selReg
  split <;> rfl

/-- Writing the selected register (R9, R22). -/
theorem setReg_selected (s : State) (sel : Byte) (v : Word) :
    SelectedBecomes sel v.toNat s (s.setReg (selReg sel) v) := by
  refine ⟨fun h => ?_, fun h => ?_⟩
  · subst h
    exact ⟨rfl, rfl⟩
  · rw [selReg_ne h]
    exact ⟨rfl, rfl⟩

/-- A register write keeps the invariant. -/
theorem setReg_inv {s : State} {r : Reg} {v : Word} (h : s.Inv) : (s.setReg r v).Inv := by
  cases r <;> exact h

/-- Reset with an image that fits (R280). -/
theorem resetWith_fits {s : State} {image : List Byte} (h : image.length ≤ 65536) :
    s.resetWith image = { State.reset with
      mem := loadBytes [] 0 image
      outcome := s.outcome
      schedule := s.schedule
      scans := s.scans } := by
  rw [State.resetWith, if_pos (show image.length ≤ Config.memSize from h)]
  rfl

/-- Reset with an image that does not fit (R282). -/
theorem resetWith_over {s : State} {image : List Byte} (h : 65536 < image.length) :
    s.resetWith image = s := by
  rw [State.resetWith, if_neg (show ¬image.length ≤ Config.memSize from Nat.not_le.mpr h)]

/-- Reset keeps the invariant. -/
theorem resetWith_inv {s : State} {image : List Byte} (h : s.Inv) : (s.resetWith image).Inv := by
  unfold State.resetWith
  split
  · next hl => exact ⟨loadBytes_wf rfl (by simpa [Config.resetAddress] using hl), rfl⟩
  · exact h

/-- Every request keeps the invariant. -/
theorem applyRequest_inv {s : State} {r : Request} (h : s.Inv) : (applyRequest s r).Inv := by
  cases r with
  | reset image => exact resetWith_inv h
  | catchUp => exact h
  | editCell a b =>
    exact ⟨writeByte_wf h.1 (by have := a.isLt; simp only [Config.topAddress]; omega), h.2⟩
  | editReg r v => exact setReg_inv h
  | editTp v => exact h

theorem applyRequests_inv {s : State} {rs : List Request} (h : s.Inv) : (applyRequests s rs).Inv := by
  induction rs generalizing s with
  | nil => exact h
  | cons r rest ih => exact ih (applyRequest_inv h)

/-- A request that is not reset leaves the latch alone (R247, R286 to R289). -/
theorem applyRequest_fault {s : State} {r : Request} (h : ∀ image, r ≠ .reset image) :
    (applyRequest s r).fault = s.fault := by
  cases r with
  | reset image => exact absurd rfl (h image)
  | catchUp => rfl
  | editCell a b => rfl
  | editReg r v => exact setReg_fault s v r
  | editTp v => rfl

theorem applyRequests_fault {s : State} {rs : List Request} (h : ∀ image, .reset image ∉ rs) :
    (applyRequests s rs).fault = s.fault := by
  induction rs generalizing s with
  | nil => rfl
  | cons r rest ih =>
    have h1 : ∀ image, r ≠ .reset image := fun image hr => h image (hr ▸ List.mem_cons_self)
    have h2 : ∀ image, .reset image ∉ rest := fun image hr => h image (List.mem_cons_of_mem _ hr)
    exact (ih h2).trans (applyRequest_fault h1)

end Sys2Proof.Machine
end

