-- ==== Sys2Proof/Laws/Scanner.lean ====
section
/-! SUPPORT. The laws of the Tagging Scanner: its marks keep the canonical form, never go above 0xFFFF, and are at most
four a visit. -/

namespace Sys2Proof.Machine

theorem markOperands_wf {t : Tags} {a : Nat} {gs : List Tag} (h : Tags.wf t = true) :
    Tags.wf (markOperands t a gs) = true := by
  induction gs generalizing t a with
  | nil => exact h
  | cons g gs ih =>
    rw [markOperands]
    split
    · next ha => exact ih (writeTag_wf h ha)
    · exact h

theorem markOperands_length {t : Tags} {a : Nat} {gs : List Tag} :
    (markOperands t a gs).length ≤ t.length + gs.length := by
  induction gs generalizing t a with
  | nil => exact Nat.le_refl _
  | cons g gs ih =>
    rw [markOperands]
    split
    · have h1 := @ih (writeTag t a g) (a + 1)
      have h2 : (writeTag t a g).length ≤ t.length + 1 := sparseWrite_length
      rw [List.length_cons]
      omega
    · omega

/-- Marks of operands leave every cell below them alone. -/
theorem readTag_markOperands_below {t : Tags} {a c : Nat} {gs : List Tag} (hc : c < a) :
    readTag (markOperands t a gs) c = readTag t c := by
  induction gs generalizing t a with
  | nil => rfl
  | cons g gs ih =>
    rw [markOperands]
    split
    · rw [ih (by omega), readTag_writeTag_other (by omega)]
    · rfl

/-- What marking operands does to any cell: from `a` upward each cell within the address space takes its mark. -/
theorem readTag_markOperands {t : Tags} {a c : Nat} {gs : List Tag} (h : Tags.wf t = true) :
    readTag (markOperands t a gs) c =
      if a ≤ c ∧ c < a + gs.length ∧ c ≤ Config.topAddress then gs.getD (c - a) .unknown else readTag t c := by
  induction gs generalizing t a with
  | nil => rw [if_neg (by simp only [List.length_nil]; omega)]; rfl
  | cons g gs ih =>
    rw [markOperands]
    by_cases ha : a ≤ Config.topAddress
    · rw [if_pos ha, ih (writeTag_wf h ha)]
      rcases Nat.lt_trichotomy c a with hc | rfl | hc
      · rw [if_neg (by omega), if_neg (by omega), readTag_writeTag_other (by omega)]
      · rw [if_neg (by omega), readTag_writeTag_self h, if_pos ⟨Nat.le_refl _, by simp, ha⟩]; simp
      · rw [readTag_writeTag_other (by omega), show c - a = c - (a + 1) + 1 by omega]
        simp only [List.getD_cons_succ, List.length_cons]
        exact if_congr (by omega) rfl rfl
    · rw [if_neg ha, if_neg (by omega)]

theorem operandTags_length (op : Op) : (operandTags op).length + 1 = op.length := by
  cases op <;> rfl

theorem unknown_not_mem_operandTags (op : Op) : Tag.unknown ∉ operandTags op := by
  cases op <;> decide

/-- Marks of operands leave no marked cell Unknown, when none of them is Unknown. -/
theorem readTag_markOperands_ne {t : Tags} {a c : Nat} {gs : List Tag} (h : Tags.wf t = true)
    (hg : Tag.unknown ∉ gs) (hc : readTag t c ≠ .unknown) : readTag (markOperands t a gs) c ≠ .unknown := by
  induction gs generalizing t a with
  | nil => exact hc
  | cons g gs ih =>
    rw [markOperands]
    split
    · next ha =>
      refine ih (writeTag_wf h ha) (fun hm => hg (List.mem_cons_of_mem _ hm)) ?_
      by_cases hca : c = a
      · subst hca
        rw [readTag_writeTag_self h]
        exact fun he => hg (he ▸ List.mem_cons_self)
      · rw [readTag_writeTag_other hca]
        exact hc
    · exact hc

/-! One visit of the scan loop, case by case (R214, R217, R218). -/

theorem scanLoop_undefined {choice : Nat → Bool} {m : Memory} {fuel ip j : Nat} {t : Tags}
    (h : lookup (readByte m ip) = none) :
    scanLoop choice m (fuel + 1) ip j t = writeTag t ip .instruction := by
  rw [scanLoop, h]

theorem scanLoop_hlt {choice : Nat → Bool} {m : Memory} {fuel ip j : Nat} {t : Tags}
    (h : lookup (readByte m ip) = some .hlt) :
    scanLoop choice m (fuel + 1) ip j t = writeTag t ip .instruction := by
  rw [scanLoop, h]; rfl

theorem scanLoop_over {choice : Nat → Bool} {m : Memory} {fuel ip j : Nat} {t : Tags} {op : Op}
    (h : lookup (readByte m ip) = some op) (hop : op ≠ .hlt) (hl : Config.topAddress < ip + op.length - 1) :
    scanLoop choice m (fuel + 1) ip j t =
      markOperands (writeTag t ip .instruction) (ip + 1) (operandTags op) := by
  rw [scanLoop, h]
  simp only [if_neg hop, if_neg (Nat.not_le.mpr hl)]

theorem scanLoop_visit {choice : Nat → Bool} {m : Memory} {fuel ip j : Nat} {t : Tags} {op : Op}
    (h : lookup (readByte m ip) = some op) (hop : op ≠ .hlt) (hl : ip + op.length - 1 ≤ Config.topAddress) :
    scanLoop choice m (fuel + 1) ip j t =
      if scanNext m op ip (choice j) ≤ Config.topAddress then
        scanLoop choice m fuel (scanNext m op ip (choice j)) (jumpsMet op j)
          (markOperands (writeTag t ip .instruction) (ip + 1) (operandTags op))
      else markOperands (writeTag t ip .instruction) (ip + 1) (operandTags op) := by
  rw [scanLoop, h]
  simp only [if_neg hop, if_pos hl]


theorem scanLoop_wf {choice : Nat → Bool} {m : Memory} {fuel ip j : Nat} {t : Tags} (h : Tags.wf t = true)
    (hip : ip ≤ Config.topAddress) : Tags.wf (scanLoop choice m fuel ip j t) = true := by
  induction fuel generalizing ip j t with
  | zero => exact h
  | succ n ih =>
    have hw := writeTag_wf (g := .instruction) h hip
    rw [scanLoop]
    dsimp only
    split
    · exact hw
    · next op _ =>
      have hm : Tags.wf (markOperands (writeTag t ip .instruction) (ip + 1) (operandTags op)) = true :=
        markOperands_wf hw
      split
      · exact hw
      · split
        · split
          · next hn => exact ih hm hn
          · exact hm
        · exact hm

/-- A visit marks at most four cells (R221 c). -/
theorem scanLoop_length {choice : Nat → Bool} {m : Memory} {fuel ip j : Nat} {t : Tags} :
    (scanLoop choice m fuel ip j t).length ≤ t.length + 4 * fuel := by
  induction fuel generalizing ip j t with
  | zero => exact Nat.le_refl _
  | succ n ih =>
    have hw : (writeTag t ip .instruction).length ≤ t.length + 1 := sparseWrite_length
    rw [scanLoop]
    dsimp only
    split
    · omega
    · next op _ =>
      have hm := @markOperands_length (writeTag t ip .instruction) (ip + 1) (operandTags op)
      have h4 : (operandTags op).length ≤ 3 := by cases op <;> decide
      split
      · omega
      · split
        · split
          · refine Nat.le_trans ih ?_
            omega
          · omega
        · omega

/-- The loop leaves no marked cell Unknown (R219: a later mark replaces an earlier one). -/
theorem readTag_scanLoop_ne {choice : Nat → Bool} {m : Memory} {fuel ip j c : Nat} {t : Tags}
    (h : Tags.wf t = true) (hip : ip ≤ Config.topAddress) (hc : readTag t c ≠ .unknown) :
    readTag (scanLoop choice m fuel ip j t) c ≠ .unknown := by
  induction fuel generalizing ip j t with
  | zero => exact hc
  | succ n ih =>
    have hw := writeTag_wf (g := .instruction) h hip
    have hc' : readTag (writeTag t ip .instruction) c ≠ .unknown := by
      by_cases hca : c = ip
      · subst hca
        rw [readTag_writeTag_self h]
        decide
      · rw [readTag_writeTag_other hca]
        exact hc
    rw [scanLoop]
    dsimp only
    split
    · exact hc'
    · next op _ =>
      have hm := readTag_markOperands_ne (a := ip + 1) hw (unknown_not_mem_operandTags op) hc'
      have hmw : Tags.wf (markOperands (writeTag t ip .instruction) (ip + 1) (operandTags op)) = true :=
        markOperands_wf hw
      split
      · exact hc'
      · split
        · split
          · next hn => exact ih hmw hn hm
          · exact hm
        · exact hm

theorem scanTags_wf (choice : Nat → Bool) (s : State) : Tags.wf (scanTags choice s) = true := by
  have h1 := s.pointer.isLt
  have h2 := s.targetPointer.isLt
  exact scanLoop_wf (writeTag_wf rfl (by simp only [Config.topAddress]; omega))
    (by simp only [Config.topAddress]; omega)

/-- A scan keeps the invariant, whatever the tags were. -/
theorem scan_inv {s : State} (h : Memory.wf s.mem = true) : (scan s).Inv :=
  ⟨h, scanTags_wf _ s⟩

/-- The tags of a scan do not depend on the tags before it (R212). -/
theorem scanTags_congr {choice : Nat → Bool} {s t : State} (hm : s.mem = t.mem) (hp : s.pointer = t.pointer)
    (ht : s.targetPointer = t.targetPointer) : scanTags choice s = scanTags choice t := by
  simp only [scanTags, hm, hp, ht]

end Sys2Proof.Machine
end

