-- ==== Sys2Proof/Laws/Engine.lean ====
section
/-! SUPPORT. What a fetch finds, what a meaning can do, what a step request and a tick do, said once. -/

namespace Sys2Proof.Machine

/-! ## Fetch -/

/-- The bytes fetched begin with the byte at P, which is always in range (R59 d). -/
theorem fetchBytes_head (m : Memory) (a : Word) :
    fetchBytes m a = readByte m a.toNat :: readBytes m 3 (a.toNat + 1) := by
  have := a.isLt
  rw [fetchBytes, readBytes, if_pos (by simp only [Config.topAddress]; omega)]

theorem length_readBytes (m : Memory) (n a : Nat) : (readBytes m n a).length = min n (0x10000 - a) := by
  induction n generalizing a with
  | zero => simp [readBytes]
  | succ n ih =>
    rw [readBytes]
    by_cases ha : a ≤ Config.topAddress
    · rw [if_pos ha, List.length_cons, ih]
      simp only [Config.topAddress] at ha
      omega
    · rw [if_neg ha, List.length_nil]
      simp only [Config.topAddress] at ha
      omega

theorem getElem_readBytes {m : Memory} {n a k : Nat} (h : k < (readBytes m n a).length) :
    (readBytes m n a)[k] = readByte m (a + k) := by
  induction n generalizing a k with
  | zero => simp [readBytes] at h
  | succ n ih =>
    by_cases ha : a ≤ Config.topAddress
    · simp only [readBytes, if_pos ha] at h ⊢
      cases k with
      | zero => rfl
      | succ k =>
        rw [List.getElem_cons_succ, ih, show a + 1 + k = a + (k + 1) by omega]
    · simp [readBytes, if_neg ha] at h

theorem fetch_unknown {s : State} (h : lookup (readByte s.mem s.pointer.toNat) = none) :
    fetch s = .error (.unknownOpcode (readByte s.mem s.pointer.toNat)) := by
  rw [fetch, fetchBytes_head, decode_unknown h]
  rfl

theorem fetch_truncated {s : State} {op : Op} (h : lookup (readByte s.mem s.pointer.toNat) = some op)
    (hl : 0xFFFF < s.pointer.toNat + op.length - 1) : fetch s = .error (.truncated op) := by
  have h4 := length_bounds op
  have hp := s.pointer.isLt
  rw [fetch, fetchBytes_head, decode_truncated h]
  · rfl
  · rw [length_readBytes]
    omega

theorem fetch_ok {s : State} {op : Op} (h : lookup (readByte s.mem s.pointer.toNat) = some op)
    (hl : s.pointer.toNat + op.length - 1 ≤ 0xFFFF) : ∃ i, fetch s = .ok i ∧ i.op = op := by
  have h4 := length_bounds op
  have hp := s.pointer.isLt
  have hle : op.length ≤ (readBytes s.mem 3 (s.pointer.toNat + 1)).length + 1 := by
    rw [length_readBytes]
    omega
  obtain ⟨i, r, hd, hi⟩ := decode_ok h hle
  refine ⟨i, ?_, hi⟩
  rw [fetch, fetchBytes_head, hd]
  rfl

/-! ## Meanings -/

/-- The writes of an instruction, before the end of the step: everything a load can do. -/
theorem loadFrom_cases {sel : Byte} {a : Word} {len : Nat} {s t : State} (h : loadFrom sel a len s = .next t) :
    (∃ v, readWord s.mem a = some v ∧
      writeback s (s.setReg (selReg sel) v) (s.following len) = .next t) ∨
    (readWord s.mem a = none ∧ t = s.faulted .addressOutOfRange) := by
  unfold loadFrom at h
  split at h
  · next v hv => exact .inl ⟨v, hv, h⟩
  · next hv =>
    rw [raise_eq] at h
    exact .inr ⟨hv, by injection h with h; exact h.symm⟩

/-- Everything a store can do. -/
theorem storeTo_cases {sel : Byte} {a : Word} {len : Nat} {s t : State} (h : storeTo sel a len s = .next t) :
    (∃ m, writeWord s.mem a (s.getReg (selReg sel)) = some m ∧
      writeback s { s with mem := m } (s.following len) = .next t) ∨
    (writeWord s.mem a (s.getReg (selReg sel)) = none ∧ t = s.faulted .addressOutOfRange) := by
  unfold storeTo at h
  split at h
  · next m hm => exact .inl ⟨m, hm, h⟩
  · next hm =>
    rw [raise_eq] at h
    exact .inr ⟨hm, by injection h with h; exact h.symm⟩

/-! ## Step requests -/

theorem eligible_iff {s : State} : s.eligible = true ↔ s.pointer = s.targetPointer ∧ s.fault = none := by
  simp [State.eligible, State.atRest]

/-- A commit that is not eligible (R122). -/
theorem commit_noStep {s : State} (h : ¬(s.pointer = s.targetPointer ∧ s.fault = none)) :
    commit s = .next { s with outcome := some .noStep } := by
  rw [commit, if_neg (fun he => h (eligible_iff.mp he))]

theorem commit_eligible {s : State} (h : s.pointer = s.targetPointer) (hf : s.fault = none) :
    commit s = runStep s := by
  rw [commit, if_pos (eligible_iff.mpr ⟨h, hf⟩)]

theorem runStep_exec {s : State} {i : Instr} (h : fetch s = .ok i) : runStep s = exec i s := by
  rw [runStep, h]

/-- A tick with commit asserted. -/
theorem tick_commit {s : State} {inp : TickInput} (h : inp.commit = true) :
    tick s inp = commit (scan (applyRequests s inp.requests)) := by
  simp only [tick, h, if_true]

/-- A tick without commit. -/
theorem tick_idle {s : State} {inp : TickInput} (h : inp.commit = false) :
    tick s inp = .next { scan (applyRequests s inp.requests) with outcome := none } := by
  simp [tick, h]

/-- A step where nothing is scheduled: the pointer catches up, one scan, one step request (log entry 1). -/
theorem step_unscheduled {s : State} (h : s.schedule = []) : step s = commit (scan s.caughtUp) := by
  rw [step, scheduledTick, nextInput, h, List.headD_nil, tick_commit rfl]
  rw [show ({ s with schedule := ([] : List TickInput).tail } : State) = s by rw [List.tail_nil, ← h]]
  rfl

end Sys2Proof.Machine
end

