-- ==== Sys2Proof/Laws/Exec.lean ====
section
/-! SUPPORT. What a meaning can do and what a step request can do, said once over all 23 instructions; the invariants
and the whole-machine rules are read off these two case lemmas. -/

namespace Sys2Proof.Machine

/-- What the state `after` that an instruction hands to the end of its step has kept of the state `s` before it, and the
next address `n` it computes. -/
structure Effect (i : Instr) (s after : State) (n : Nat) : Prop where
  pointer  : after.pointer = s.pointer
  tags     : after.tags = s.tags
  fault    : after.fault = s.fault
  schedule : after.schedule = s.schedule
  scans    : after.scans = s.scans
  /-- C is written by four instructions only (R28, R29). -/
  carry    : i ∉ [Instr.add, .sub, .scf, .ccf] → after.carry = s.carry
  /-- Memory is written by two instructions only (R32, R55). -/
  mem      : i.op ≠ .sto → i.op ≠ .str → after.mem = s.mem
  wf       : Memory.wf s.mem = true → Memory.wf after.mem = true
  /-- The next address is sequential or a jump's operand (R27). -/
  next     : n = s.pointer.toNat + i.op.length ∨
    (i.op.format = .a ∧ i.operandBytes = [hiByte (BitVec.ofNat 16 n), loByte (BitVec.ofNat 16 n)])

/-- An instruction that writes nothing but TP. -/
theorem Effect.refl {i : Instr} {s : State} {n : Nat}
    (h : n = s.pointer.toNat + i.op.length ∨
      (i.op.format = .a ∧ i.operandBytes = [hiByte (BitVec.ofNat 16 n), loByte (BitVec.ofNat 16 n)])) :
    Effect i s s n :=
  ⟨rfl, rfl, rfl, rfl, rfl, fun _ => rfl, fun _ _ => rfl, id, h⟩

/-- An instruction that writes one register. -/
theorem Effect.ofSetReg {i : Instr} {s : State} {r : Reg} {v : Word} :
    Effect i s (s.setReg r v) (s.following i.op.length) :=
  ⟨setReg_pointer .., setReg_tags .., setReg_fault .., setReg_schedule .., setReg_scans .., fun _ => setReg_carry ..,
    fun _ _ => setReg_mem .., by rw [setReg_mem]; exact id, .inl rfl⟩

/-- What the answer of a meaning can be: an exception taken, HLT's, or an effect and a next address that fits. -/
def Answers (i : Instr) (s t : State) : Prop :=
  (∃ e, t = s.faulted e) ∨ (i = .hlt ∧ t = { s with outcome := some .halted }) ∨
    ∃ after n, n ≤ 0xFFFF ∧ Effect i s after n ∧
      t = { after with targetPointer := BitVec.ofNat 16 n, outcome := some .stepped }

theorem answers_writeback {i : Instr} {s after t : State} {n : Nat} (h : writeback s after n = .next t)
    (he : Effect i s after n) : Answers i s t := by
  rcases writeback_cases h with ⟨hn, rfl⟩ | ⟨_, rfl⟩
  · exact .inr (.inr ⟨after, n, hn, he, rfl⟩)
  · exact .inl ⟨_, rfl⟩

theorem answers_load {i : Instr} {sel : Byte} {a : Word} {s t : State}
    (h : loadFrom sel a i.op.length s = .next t) : Answers i s t := by
  rcases loadFrom_cases h with ⟨v, _, h⟩ | ⟨_, rfl⟩
  · exact answers_writeback h Effect.ofSetReg
  · exact .inl ⟨_, rfl⟩

theorem answers_store {i : Instr} {sel : Byte} {a : Word} {s t : State}
    (h : storeTo sel a i.op.length s = .next t) (hi : i.op = .sto ∨ i.op = .str) : Answers i s t := by
  rcases storeTo_cases h with ⟨m, hm, h⟩ | ⟨_, rfl⟩
  · refine answers_writeback h ⟨rfl, rfl, rfl, rfl, rfl, fun _ => rfl, fun h1 h2 => ?_,
      fun hw => (writeWord_spec hm hw).1, .inl rfl⟩
    exact absurd hi (by simp [h1, h2])
  · exact .inl ⟨_, rfl⟩

theorem answers_jump {i : Instr} {c : Bool} {addr : Word} {s t : State} (h : jumpIf c addr s = .next t)
    (hf : i.op.format = .a) (hl : i.op.length = 3) (hb : i.operandBytes = [hiByte addr, loByte addr]) :
    Answers i s t := by
  refine answers_writeback h (.refl ?_)
  cases c
  · exact .inl (by rw [hl]; rfl)
  · exact .inr ⟨hf, by rw [hb]; simp⟩

theorem answers_raise {i : Instr} {s t : State} {e : Exc} (h : raise s e = .next t) : Answers i s t := by
  rw [raise_eq] at h
  exact .inl ⟨e, by injection h with h; exact h.symm⟩

/-- Everything an instruction can do when it answers a next state. -/
theorem exec_answers {i : Instr} {s t : State} (h : exec i s = .next t) : Answers i s t := by
  cases i with
  | nop => exact answers_writeback h (.refl (.inl rfl))
  | hlt => injection h with h; exact .inr (.inl ⟨rfl, h.symm⟩)
  | mov sel => exact answers_writeback h Effect.ofSetReg
  | lod sel a => exact answers_load h
  | sto sel a => exact answers_store h (.inl rfl)
  | ldr sel => exact answers_load h
  | str sel => exact answers_store h (.inr rfl)
  | swp =>
    exact answers_writeback h ⟨rfl, rfl, rfl, rfl, rfl, fun _ => rfl, fun _ _ => rfl, id, .inl rfl⟩
  | ldi sel v => exact answers_writeback h Effect.ofSetReg
  | add =>
    exact answers_writeback h ⟨rfl, rfl, rfl, rfl, rfl, fun h => absurd (by simp) h, fun _ _ => rfl, id, .inl rfl⟩
  | sub =>
    exact answers_writeback h ⟨rfl, rfl, rfl, rfl, rfl, fun h => absurd (by simp) h, fun _ _ => rfl, id, .inl rfl⟩
  | mul =>
    exact answers_writeback h ⟨rfl, rfl, rfl, rfl, rfl, fun _ => rfl, fun _ _ => rfl, id, .inl rfl⟩
  | div =>
    simp only [exec, execDiv] at h
    split at h
    · exact answers_raise h
    · exact answers_writeback h ⟨rfl, rfl, rfl, rfl, rfl, fun _ => rfl, fun _ _ => rfl, id, .inl rfl⟩
  | mod =>
    simp only [exec, execMod] at h
    split at h
    · exact answers_raise h
    · exact answers_writeback h ⟨rfl, rfl, rfl, rfl, rfl, fun _ => rfl, fun _ _ => rfl, id, .inl rfl⟩
  | jmp a => exact answers_jump h rfl rfl rfl
  | jz a => exact answers_jump h rfl rfl rfl
  | jnz a => exact answers_jump h rfl rfl rfl
  | jc a => exact answers_jump h rfl rfl rfl
  | jnc a => exact answers_jump h rfl rfl rfl
  | jge a => exact answers_jump h rfl rfl rfl
  | jl a => exact answers_jump h rfl rfl rfl
  | scf =>
    exact answers_writeback h ⟨rfl, rfl, rfl, rfl, rfl, fun h => absurd (by simp) h, fun _ _ => rfl, id, .inl rfl⟩
  | ccf =>
    exact answers_writeback h ⟨rfl, rfl, rfl, rfl, rfl, fun h => absurd (by simp) h, fun _ _ => rfl, id, .inl rfl⟩

theorem loadFrom_next (sel : Byte) (a : Word) (len : Nat) (s : State) : ∃ t, loadFrom sel a len s = .next t := by
  unfold loadFrom
  split
  · exact writeback_next ..
  · exact ⟨_, rfl⟩

theorem storeTo_next (sel : Byte) (a : Word) (len : Nat) (s : State) : ∃ t, storeTo sel a len s = .next t := by
  unfold storeTo
  split
  · exact writeback_next ..
  · exact ⟨_, rfl⟩

/-- Every instruction answers a next state, in every state. -/
theorem exec_next (i : Instr) (s : State) : ∃ t, exec i s = .next t := by
  cases i with
  | lod sel a => exact loadFrom_next ..
  | ldr sel => exact loadFrom_next ..
  | sto sel a => exact storeTo_next ..
  | str sel => exact storeTo_next ..
  | hlt => exact ⟨_, rfl⟩
  | div =>
    simp only [exec, execDiv]
    split
    · exact ⟨_, rfl⟩
    · exact writeback_next ..
  | mod =>
    simp only [exec, execMod]
    split
    · exact ⟨_, rfl⟩
    · exact writeback_next ..
  | nop => exact writeback_next ..
  | mov sel => exact writeback_next ..
  | swp => exact writeback_next ..
  | ldi sel v => exact writeback_next ..
  | add => exact writeback_next ..
  | sub => exact writeback_next ..
  | mul => exact writeback_next ..
  | jmp a => exact writeback_next ..
  | jz a => exact writeback_next ..
  | jnz a => exact writeback_next ..
  | jc a => exact writeback_next ..
  | jnc a => exact writeback_next ..
  | jge a => exact writeback_next ..
  | jl a => exact writeback_next ..
  | scf => exact writeback_next ..
  | ccf => exact writeback_next ..

/-- Everything Step() can do: an instruction, UnknownOpcode, or the operand-range fault (R123). -/
theorem runStep_cases (s : State) :
    (∃ i, fetch s = .ok i ∧ runStep s = exec i s) ∨
    runStep s = .next { s with outcome := some .unknownOpcode } ∨
    runStep s = .next (s.faulted .addressOutOfRange) := by
  unfold runStep
  split
  · next i h => exact .inl ⟨i, h, rfl⟩
  · exact .inr (.inl rfl)
  · exact .inr (.inr rfl)
  · exact .inr (.inr rfl)

/-- Everything a step request can do. -/
theorem commit_cases {s t : State} (h : commit s = .next t) :
    (¬s.Ready ∧ t = { s with outcome := some .noStep }) ∨
    (s.Ready ∧ ((∃ i, exec i s = .next t) ∨ t = { s with outcome := some .unknownOpcode } ∨
      t = s.faulted .addressOutOfRange)) := by
  by_cases hr : s.Ready
  · refine .inr ⟨hr, ?_⟩
    rw [commit_eligible hr.1 hr.2] at h
    rcases runStep_cases s with ⟨i, _, h'⟩ | h' | h'
    · exact .inl ⟨i, h' ▸ h⟩
    · rw [h'] at h
      injection h with h
      exact .inr (.inl h.symm)
    · rw [h'] at h
      injection h with h
      exact .inr (.inr h.symm)
  · rw [commit_noStep hr] at h
    injection h with h
    exact .inl ⟨hr, h.symm⟩

/-- A step request always answers a next state. -/
theorem commit_next (s : State) : ∃ t, commit s = .next t := by
  unfold commit
  split
  · rcases runStep_cases s with ⟨i, _, h⟩ | h | h
    · rw [h]
      exact exec_next i s
    · exact ⟨_, h⟩
    · exact ⟨_, h⟩
  · exact ⟨_, rfl⟩

/-! ## Tags and the scan counter play no part (R211) -/

/-- `s` with other tags and another scan count. -/
def retag (g : Tags) (n : Nat) (s : State) : State := { s with tags := g, scans := n }

/-- An outcome with its next state changed. -/
def mapNext (f : State → State) : Host.Outcome State Fault Refusal → Host.Outcome State Fault Refusal
  | .next s => .next (f s)
  | .fault r => .fault r
  | .refused r => .refused r

theorem retag_setReg (g : Tags) (n : Nat) (s : State) (r : Reg) (v : Word) :
    (retag g n s).setReg r v = retag g n (s.setReg r v) := by cases r <;> rfl

theorem retag_getReg (g : Tags) (n : Nat) (s : State) (r : Reg) : (retag g n s).getReg r = s.getReg r := by
  cases r <;> rfl

theorem writeback_retag (g : Tags) (n : Nat) (before after : State) (next : Nat) :
    writeback (retag g n before) (retag g n after) next = mapNext (retag g n) (writeback before after next) := by
  unfold writeback
  split <;> rfl

theorem loadFrom_retag (g : Tags) (n : Nat) (sel : Byte) (a : Word) (len : Nat) (s : State) :
    loadFrom sel a len (retag g n s) = mapNext (retag g n) (loadFrom sel a len s) := by
  simp only [loadFrom, retag_setReg]
  rw [show (retag g n s).mem = s.mem from rfl]
  split
  · exact writeback_retag ..
  · rfl

theorem storeTo_retag (g : Tags) (n : Nat) (sel : Byte) (a : Word) (len : Nat) (s : State) :
    storeTo sel a len (retag g n s) = mapNext (retag g n) (storeTo sel a len s) := by
  simp only [storeTo, retag_getReg]
  rw [show (retag g n s).mem = s.mem from rfl]
  split
  · next m _ => exact writeback_retag g n s { s with mem := m } _
  · rfl

/-- No instruction reads a tag or the scan count, and none writes them. -/
theorem exec_retag (g : Tags) (n : Nat) (i : Instr) (s : State) :
    exec i (retag g n s) = mapNext (retag g n) (exec i s) := by
  cases i with
  | lod sel a => exact loadFrom_retag ..
  | ldr sel => exact loadFrom_retag ..
  | sto sel a => exact storeTo_retag ..
  | str sel => exact storeTo_retag ..
  | hlt => rfl
  | mov sel =>
    simp only [exec, execMov, retag_setReg, retag_getReg]
    exact writeback_retag ..
  | ldi sel v =>
    simp only [exec, execLdi, retag_setReg]
    exact writeback_retag ..
  | div =>
    simp only [exec, execDiv]
    rw [show (retag g n s).y = s.y from rfl]
    split
    · rfl
    · exact writeback_retag g n s { s with x := quotientWord s.x s.y } _
  | mod =>
    simp only [exec, execMod]
    rw [show (retag g n s).y = s.y from rfl]
    split
    · rfl
    · exact writeback_retag g n s { s with x := remainderWord s.x s.y } _
  | nop => exact writeback_retag ..
  | swp => exact writeback_retag g n s { s with x := s.y, y := s.x } _
  | add => exact writeback_retag g n s { s with x := sumWord s.x s.y, carry := sumCarry s.x s.y } _
  | sub => exact writeback_retag g n s { s with x := diffWord s.x s.y, carry := diffCarry s.x s.y } _
  | mul => exact writeback_retag g n s { s with x := productWord s.x s.y } _
  | jmp a => exact writeback_retag g n s s _
  | jz a => exact writeback_retag g n s s _
  | jnz a => exact writeback_retag g n s s _
  | jc a => exact writeback_retag g n s s _
  | jnc a => exact writeback_retag g n s s _
  | jge a => exact writeback_retag g n s s _
  | jl a => exact writeback_retag g n s s _
  | scf => exact writeback_retag g n s { s with carry := true } _
  | ccf => exact writeback_retag g n s { s with carry := false } _

/-- No step request reads a tag or the scan count, and none writes them. -/
theorem commit_retag (g : Tags) (n : Nat) (s : State) :
    commit (retag g n s) = mapNext (retag g n) (commit s) := by
  unfold commit
  rw [show (retag g n s).eligible = s.eligible from rfl]
  split
  · simp only [runStep]
    rw [show fetch (retag g n s) = fetch s from rfl]
    split
    · exact exec_retag ..
    · rfl
    · rfl
    · rfl
  · rfl

/-- Bytes that stand in memory from P on are what a fetch decodes. -/
theorem fetch_of_holds {s : State} {i : Instr} (h : Holds s s.pointer i) : fetch s = .ok i := by
  obtain ⟨hf, hb⟩ := h
  have hf : s.pointer.toNat + i.op.length - 1 ≤ 0xFFFF := of_decide_eq_true hf
  have h4 := length_bounds i.op
  have hp := s.pointer.isLt
  have hl := length_encode i
  have hn : (fetchBytes s.mem s.pointer).length = min 4 (0x10000 - s.pointer.toNat) := length_readBytes ..
  have he : fetchBytes s.mem s.pointer = encode i ++ (fetchBytes s.mem s.pointer).drop (encode i).length := by
    apply List.ext_getElem
    · rw [List.length_append, List.length_drop]
      omega
    · intro k h1 h2
      rw [List.getElem_append]
      split
      · next hk => rw [← hb k hk]; exact getElem_readBytes h1
      · next hk => rw [List.getElem_drop]; congr 1; omega
  rw [fetch, he]
  simp only [encode, List.cons_append, decode, lookup_opcode, decodeOperands_operandBytes]
  rfl

end Sys2Proof.Machine
end

