-- ==== Sys2Proof/Laws/PerInstr.lean ====
section
/-! SUPPORT. Statements about every instruction as syntax, one lemma per constructor. Family `Layout`: the encoding is
the opcode byte of the instruction's row and then exactly the operand bytes its format gives, and the scanner has one
tag for each operand byte (R80, R81, R82, R215). -/

namespace Sys2Proof.Laws

open Sys2Proof Sys2Proof.Machine

/-- The layout of an instruction: its opcode byte first, found in the table; its length the table's; one operand tag a
byte. -/
def Layout.Statement (i : Instr) : Prop :=
  (encode i).head? = some i.op.opcode ∧ lookup i.op.opcode = some i.op ∧
    (encode i).length = i.op.length ∧ (operandTags i.op).length + 1 = (encode i).length

theorem Layout.nop : Layout.Statement .nop := ⟨rfl, lookup_opcode _, rfl, rfl⟩
theorem Layout.hlt : Layout.Statement .hlt := ⟨rfl, lookup_opcode _, rfl, rfl⟩
theorem Layout.mov (sel : Byte) : Layout.Statement (.mov sel) := ⟨rfl, lookup_opcode _, rfl, rfl⟩
theorem Layout.lod (sel : Byte) (addr : Word) : Layout.Statement (.lod sel addr) := ⟨rfl, lookup_opcode _, rfl, rfl⟩
theorem Layout.sto (sel : Byte) (addr : Word) : Layout.Statement (.sto sel addr) := ⟨rfl, lookup_opcode _, rfl, rfl⟩
theorem Layout.ldr (sel : Byte) : Layout.Statement (.ldr sel) := ⟨rfl, lookup_opcode _, rfl, rfl⟩
theorem Layout.str (sel : Byte) : Layout.Statement (.str sel) := ⟨rfl, lookup_opcode _, rfl, rfl⟩
theorem Layout.swp : Layout.Statement .swp := ⟨rfl, lookup_opcode _, rfl, rfl⟩
theorem Layout.ldi (sel : Byte) (imm : Word) : Layout.Statement (.ldi sel imm) := ⟨rfl, lookup_opcode _, rfl, rfl⟩
theorem Layout.add : Layout.Statement .add := ⟨rfl, lookup_opcode _, rfl, rfl⟩
theorem Layout.sub : Layout.Statement .sub := ⟨rfl, lookup_opcode _, rfl, rfl⟩
theorem Layout.mul : Layout.Statement .mul := ⟨rfl, lookup_opcode _, rfl, rfl⟩
theorem Layout.div : Layout.Statement .div := ⟨rfl, lookup_opcode _, rfl, rfl⟩
theorem Layout.mod : Layout.Statement .mod := ⟨rfl, lookup_opcode _, rfl, rfl⟩
theorem Layout.jmp (addr : Word) : Layout.Statement (.jmp addr) := ⟨rfl, lookup_opcode _, rfl, rfl⟩
theorem Layout.jz (addr : Word) : Layout.Statement (.jz addr) := ⟨rfl, lookup_opcode _, rfl, rfl⟩
theorem Layout.jnz (addr : Word) : Layout.Statement (.jnz addr) := ⟨rfl, lookup_opcode _, rfl, rfl⟩
theorem Layout.jc (addr : Word) : Layout.Statement (.jc addr) := ⟨rfl, lookup_opcode _, rfl, rfl⟩
theorem Layout.jnc (addr : Word) : Layout.Statement (.jnc addr) := ⟨rfl, lookup_opcode _, rfl, rfl⟩
theorem Layout.jge (addr : Word) : Layout.Statement (.jge addr) := ⟨rfl, lookup_opcode _, rfl, rfl⟩
theorem Layout.jl (addr : Word) : Layout.Statement (.jl addr) := ⟨rfl, lookup_opcode _, rfl, rfl⟩
theorem Layout.scf : Layout.Statement .scf := ⟨rfl, lookup_opcode _, rfl, rfl⟩
theorem Layout.ccf : Layout.Statement .ccf := ⟨rfl, lookup_opcode _, rfl, rfl⟩

end Sys2Proof.Laws
end

