-- ==== Sys2Proof/Tests/Slice0.lean ====
section
/-! SUPPORT. Tests. Expected results are spec/95_test_vectors.md's (named T, M, H, V, S, or by section) or written out from
the encoding tables of spec/30_encoding.md. The `witness_` theorems show that the hypotheses of each obligation are met,
clause by clause, at the ends of their ranges. -/

namespace Sys2Proof.Tests

open Sys2Proof Sys2Proof.Machine

set_option Elab.async false

/-! ## Well-formedness: a term each check refuses, one it takes -/

/-- R125: an LDI at 0xFFFD has an operand byte at 0x10000; at 0xFFFC it fits. -/
theorem test_fitsAt : (Instr.ldi 0x00 0x1234).fitsAt 0xFFFD = false ∧
    (Instr.ldi 0x00 0x1234).fitsAt 0xFFFC = true := by decide

/-- R282: 65537 bytes are no image, 65536 are. -/
theorem test_imageFits : imageFits (List.replicate 65537 0x00) = false ∧
    imageFits (List.replicate 65536 0x00) = true := by
  simp only [imageFits, Config.memSize, List.length_replicate]; decide

/-- R102: the tokens `x` and `y` never give the selector 0x7F. -/
theorem test_fromTokens : (Instr.mov 0x7F).fromTokens = false ∧ (Instr.mov 0x01).fromTokens = true := by decide

/-! ## Decoding: one word for each constructor, bit by bit (R81, R84) -/

theorem test_decode_nop : decode [0b00000000] = .ok (.nop, []) := rfl
theorem test_decode_hlt : decode [0b00000001] = .ok (.hlt, []) := rfl
theorem test_decode_mov : decode [0b00010000, 0b10000000] = .ok (.mov 0x80, []) := rfl
theorem test_decode_lod : decode [0b00010001, 0b00000001, 0b00010010, 0b00110100] = .ok (.lod 0x01 0x1234, []) := rfl
theorem test_decode_sto : decode [0b00010010, 0b00000000, 0b11111111, 0b11111110] = .ok (.sto 0x00 0xFFFE, []) := rfl
theorem test_decode_ldr : decode [0b00010011, 0b00000001] = .ok (.ldr 0x01, []) := rfl
theorem test_decode_str : decode [0b00010100, 0b00000000] = .ok (.str 0x00, []) := rfl
theorem test_decode_swp : decode [0b00010101] = .ok (.swp, []) := rfl
theorem test_decode_ldi : decode [0b00010110, 0b00000010, 0b10101011, 0b11001101] = .ok (.ldi 0x02 0xABCD, []) := rfl
theorem test_decode_add : decode [0b00100000] = .ok (.add, []) := rfl
theorem test_decode_sub : decode [0b00100001] = .ok (.sub, []) := rfl
theorem test_decode_mul : decode [0b00100010] = .ok (.mul, []) := rfl
theorem test_decode_div : decode [0b00100011] = .ok (.div, []) := rfl
theorem test_decode_mod : decode [0b00100100] = .ok (.mod, []) := rfl
theorem test_decode_jmp : decode [0b00110000, 0b00000000, 0b01000000] = .ok (.jmp 0x0040, []) := rfl
theorem test_decode_jz : decode [0b00110001, 0b00000000, 0b00010000] = .ok (.jz 0x0010, []) := rfl
theorem test_decode_jnz : decode [0b00110010, 0b00000000, 0b00001000] = .ok (.jnz 0x0008, []) := rfl
theorem test_decode_jc : decode [0b00110011, 0b10000000, 0b00000001] = .ok (.jc 0x8001, []) := rfl
theorem test_decode_jnc : decode [0b00110100, 0b00000000, 0b00011001] = .ok (.jnc 0x0019, []) := rfl
theorem test_decode_jge : decode [0b00110101, 0b00010010, 0b00110100] = .ok (.jge 0x1234, []) := rfl
theorem test_decode_jl : decode [0b00110110, 0b11111111, 0b00000000] = .ok (.jl 0xFF00, []) := rfl
theorem test_decode_scf : decode [0b01000000] = .ok (.scf, []) := rfl
theorem test_decode_ccf : decode [0b01000001] = .ok (.ccf, []) := rfl

/-- 95, 2.1: the undefined bytes that stand beside a defined opcode are refused by name. -/
theorem test_decode_undefined : ([0x02, 0x0F, 0x17, 0x25, 0x37, 0x42, 0xFF] : List Byte).all
    (fun b => lookup b == none) = true ∧ decode [0x17, 0x00] = .error (.unknownOpcode 0x17) := ⟨rfl, rfl⟩

/-- R82: an LDI with two of its three operand bytes is no instruction. -/
theorem test_decode_truncated : decode [0x16, 0x00, 0x12] = .error (.truncated .ldi) := rfl

/-- 95, 2.1: the lengths. -/
theorem test_lengths : [Op.nop, .mov, .ldi, .mod, .jmp, .jl, .ccf].map Op.length = [1, 2, 4, 1, 3, 3, 1] := rfl

/-- The table numbers B0 as bits 7..0: `12 00 01 02` is 0x02010012; operand bytes the table gives no bits are zero. -/
theorem test_table_word : decodeTableWord 32 0x02010012 = some (.sto 0x00 0x0102) ∧
    decodeTableWord 8 0x30 = some (.jmp 0x0000) ∧ decodeTableWord 8 0x02 = none := ⟨rfl, rfl, rfl⟩

/-! ## One step of each instruction (95, 2.2 to 2.6) -/

/-- A machine at rest at `p` with `bytes` there and nothing else. -/
def machine (x y : Word) (c : Bool) (p : Word) (bytes : List Byte) : State :=
  { State.reset with
    mem := loadBytes [] p.toNat bytes, x := x, y := y, carry := c, pointer := p, targetPointer := p }

/-- X, Y, C, TP and the outcome after a commit. -/
def after (s : State) : Option (Word × Word × Bool × Word × Option StepOutcome) :=
  (nextState (commit s)).map fun t => (t.x, t.y, t.carry, t.targetPointer, t.outcome)

/-- The bytes at `a` and `a + 1` after a commit. -/
def wordAfter (s : State) (a : Nat) : Option (Byte × Byte) :=
  (nextState (commit s)).map fun t => (readByte t.mem a, readByte t.mem (a + 1))

/-- The machine with two more bytes at `a`. -/
def holding (s : State) (a : Nat) (bytes : List Byte) : State := { s with mem := loadBytes s.mem a bytes }

/-- T1. -/
theorem test_nop : after (machine 0x0001 0x0002 true 0x0008 [0x00]) =
    some (0x0001, 0x0002, true, 0x0009, some .stepped) := by decide +kernel

/-- T6. -/
theorem test_nop_top : after (machine 0x0000 0x0000 false 0xFFFF [0x00]) =
    some (0x0000, 0x0000, false, 0xFFFF, some (.fault .addressOutOfRange)) := by decide +kernel

/-- T4. -/
theorem test_hlt : after (machine 0x0015 0x0003 false 0x0009 [0x01]) =
    some (0x0015, 0x0003, false, 0x0009, some .halted) := by decide +kernel

/-- T7. -/
theorem test_hlt_top : after (machine 0x0000 0x0000 false 0xFFFF [0x01]) =
    some (0x0000, 0x0000, false, 0xFFFF, some .halted) := by decide +kernel

/-- M1. -/
theorem test_mov_x : after (machine 0x0000 0x0006 false 0x0010 [0x10, 0x00]) =
    some (0x0006, 0x0006, false, 0x0012, some .stepped) := by decide +kernel

/-- M3: selector 7F is Y. -/
theorem test_mov_7F : after (machine 0x1234 0x0000 false 0x0010 [0x10, 0x7F]) =
    some (0x1234, 0x1234, false, 0x0012, some .stepped) := by decide +kernel

/-- M4. -/
theorem test_lod_y : after (holding (machine 0x0000 0x0000 false 0x0010 [0x11, 0x01, 0x01, 0x00]) 0x0100 [0x12, 0x34]) =
    some (0x0000, 0x1234, false, 0x0014, some .stepped) := by decide +kernel

/-- M8. -/
theorem test_lod_top : after (holding (machine 0x0000 0x0000 false 0x0010 [0x11, 0x00, 0xFF, 0xFE]) 0xFFFE [0xAB, 0xCD]) =
    some (0xABCD, 0x0000, false, 0x0014, some .stepped) := by decide +kernel

/-- M10. -/
theorem test_sto_y : wordAfter (machine 0x1234 0x5678 false 0x0010 [0x12, 0x01, 0x01, 0x00]) 0x0100 =
    some (0x56, 0x78) := by decide +kernel

/-- M11: the byte at 0xFFFF stays. -/
theorem test_sto_beyond_top : wordAfter (holding (machine 0x1234 0x5678 false 0x0010 [0x12, 0x00, 0xFF, 0xFF]) 0xFFFF [0xEE]) 0xFFFF =
    some (0xEE, 0x00) := by decide +kernel

/-- M14. -/
theorem test_ldr_x : after (holding (machine 0x0100 0x0000 false 0x0010 [0x13, 0x00]) 0x0100 [0x12, 0x34]) =
    some (0x1234, 0x0000, false, 0x0012, some .stepped) := by decide +kernel

/-- M15. -/
theorem test_ldr_beyond_top : after (machine 0xFFFF 0x0000 false 0x0010 [0x13, 0x01]) =
    some (0xFFFF, 0x0000, false, 0x0010, some (.fault .addressOutOfRange)) := by decide +kernel

/-- M17: the data is X too. -/
theorem test_str_x : wordAfter (machine 0x0200 0xBEEF false 0x0010 [0x14, 0x00]) 0x0200 =
    some (0x02, 0x00) := by decide +kernel

/-- M23. -/
theorem test_str_itself : wordAfter (machine 0x0010 0x0000 false 0x0010 [0x14, 0x00]) 0x0010 =
    some (0x00, 0x10) := by decide +kernel

/-- M19. -/
theorem test_swp : after (machine 0x0100 0x1234 false 0x0010 [0x15]) =
    some (0x1234, 0x0100, false, 0x0011, some .stepped) := by decide +kernel

/-- M20. -/
theorem test_ldi_x : after (machine 0x0000 0x0000 false 0x0010 [0x16, 0x00, 0x00, 0x12]) =
    some (0x0012, 0x0000, false, 0x0014, some .stepped) := by decide +kernel

/-- M22: selector 02 is Y. -/
theorem test_ldi_02 : after (machine 0x0000 0x0000 false 0x0010 [0x16, 0x02, 0xAB, 0xCD]) =
    some (0x0000, 0xABCD, false, 0x0014, some .stepped) := by decide +kernel

/-- 2.4. -/
theorem test_add : after (machine 0x1234 0x5678 true 0x0010 [0x20]) =
    some (0x68AC, 0x5678, false, 0x0011, some .stepped) := by decide +kernel

/-- 2.4. -/
theorem test_add_carry : after (machine 0xFFFE 0x0002 false 0x0010 [0x20]) =
    some (0x0000, 0x0002, true, 0x0011, some .stepped) := by decide +kernel

/-- 2.4, D1. -/
theorem test_sub_borrow : after (machine 0x1234 0x5678 true 0x0010 [0x21]) =
    some (0xBBBC, 0x5678, true, 0x0011, some .stepped) := by decide +kernel

/-- 2.4, D1. -/
theorem test_sub_clears : after (machine 0x0007 0x0000 true 0x0010 [0x21]) =
    some (0x0007, 0x0000, false, 0x0011, some .stepped) := by decide +kernel

/-- 2.4. -/
theorem test_mul_keeps_carry : after (machine 0xFFFF 0xFFFF true 0x0010 [0x22]) =
    some (0x0001, 0xFFFF, true, 0x0011, some .stepped) := by decide +kernel

/-- 2.4. -/
theorem test_mul_low_word : after (machine 0x1234 0x5678 true 0x0010 [0x22]) =
    some (0x0060, 0x5678, true, 0x0011, some .stepped) := by decide +kernel

/-- 2.4. -/
theorem test_div : after (machine 0xFFFE 0x0002 false 0x0010 [0x23]) =
    some (0x7FFF, 0x0002, false, 0x0011, some .stepped) := by decide +kernel

/-- V3, and R245 at the top. -/
theorem test_div_zero_top : after (machine 0x0007 0x0000 true 0xFFFF [0x23]) =
    some (0x0007, 0x0000, true, 0xFFFF, some (.fault .divisionByZero)) := by decide +kernel

/-- 2.4. -/
theorem test_mod : after (machine 0x0030 0x0012 false 0x0010 [0x24]) =
    some (0x000C, 0x0012, false, 0x0011, some .stepped) := by decide +kernel

/-- V3. -/
theorem test_mod_zero : after (machine 0xFFFF 0x0000 false 0x0010 [0x24]) =
    some (0xFFFF, 0x0000, false, 0x0010, some (.fault .moduloByZero)) := by decide +kernel

/-- 2.5. -/
theorem test_jmp : after (machine 0x0001 0x0002 true 0x0030 [0x30, 0x00, 0x40]) =
    some (0x0001, 0x0002, true, 0x0040, some .stepped) := by decide +kernel

/-- 2.5. -/
theorem test_jmp_top : after (machine 0x0000 0x0000 false 0xFFFD [0x30, 0x12, 0x34]) =
    some (0x0000, 0x0000, false, 0x1234, some .stepped) := by decide +kernel

/-- 2.5. -/
theorem test_jz_not_taken : after (machine 0x8000 0x0000 false 0x0030 [0x31, 0x00, 0x40]) =
    some (0x8000, 0x0000, false, 0x0033, some .stepped) := by decide +kernel

/-- 2.5, D7. -/
theorem test_jz_top : after (machine 0x0001 0x0000 false 0xFFFD [0x31, 0x12, 0x34]) =
    some (0x0001, 0x0000, false, 0xFFFD, some (.fault .addressOutOfRange)) := by decide +kernel

/-- 2.5. -/
theorem test_jnz : after (machine 0xFFFF 0x0000 false 0x0030 [0x32, 0x00, 0x40]) =
    some (0xFFFF, 0x0000, false, 0x0040, some .stepped) := by decide +kernel

/-- 2.5. -/
theorem test_jnz_not_taken : after (machine 0x0000 0x0001 false 0x0030 [0x32, 0x00, 0x40]) =
    some (0x0000, 0x0001, false, 0x0033, some .stepped) := by decide +kernel

/-- 2.5. -/
theorem test_jc : after (machine 0x0000 0x0000 true 0x0030 [0x33, 0x00, 0x40]) =
    some (0x0000, 0x0000, true, 0x0040, some .stepped) := by decide +kernel

/-- 2.5. -/
theorem test_jc_not_taken : after (machine 0x0000 0x0000 false 0x0030 [0x33, 0x00, 0x40]) =
    some (0x0000, 0x0000, false, 0x0033, some .stepped) := by decide +kernel

/-- 2.5. -/
theorem test_jnc : after (machine 0x0000 0x0000 false 0x0030 [0x34, 0x00, 0x40]) =
    some (0x0000, 0x0000, false, 0x0040, some .stepped) := by decide +kernel

/-- 2.5. -/
theorem test_jnc_not_taken : after (machine 0x0000 0x0000 true 0x0030 [0x34, 0x00, 0x40]) =
    some (0x0000, 0x0000, true, 0x0033, some .stepped) := by decide +kernel

/-- 2.5. -/
theorem test_jge_equal : after (machine 0x0005 0x0005 false 0x0030 [0x35, 0x00, 0x40]) =
    some (0x0005, 0x0005, false, 0x0040, some .stepped) := by decide +kernel

/-- 2.5, D3. -/
theorem test_jge_unsigned : after (machine 0x8000 0x0001 false 0x0030 [0x35, 0x00, 0x40]) =
    some (0x8000, 0x0001, false, 0x0040, some .stepped) := by decide +kernel

/-- 2.5. -/
theorem test_jl_unsigned : after (machine 0x0001 0x8000 false 0x0030 [0x36, 0x00, 0x40]) =
    some (0x0001, 0x8000, false, 0x0040, some .stepped) := by decide +kernel

/-- 2.5. -/
theorem test_jl_equal : after (machine 0x0005 0x0005 false 0x0030 [0x36, 0x00, 0x40]) =
    some (0x0005, 0x0005, false, 0x0033, some .stepped) := by decide +kernel

/-- 2.6. -/
theorem test_scf : after (machine 0x0001 0x0002 false 0x0010 [0x40]) =
    some (0x0001, 0x0002, true, 0x0011, some .stepped) := by decide +kernel

/-- 2.6: it does not complement. -/
theorem test_ccf : after (machine 0x0001 0x0002 false 0x0010 [0x41]) =
    some (0x0001, 0x0002, false, 0x0011, some .stepped) := by decide +kernel

/-! ## The engine (95, 2.2; V6) -/

/-- T5. -/
theorem test_unknown_opcode : after (machine 0x0000 0x0000 false 0x000E [0x0B]) =
    some (0x0000, 0x0000, false, 0x000E, some .unknownOpcode) := by decide +kernel

/-- T8. -/
theorem test_unknown_opcode_top : after (machine 0x0000 0x0000 false 0xFFFF [0xFF]) =
    some (0x0000, 0x0000, false, 0xFFFF, some .unknownOpcode) := by decide +kernel

/-- V6. -/
theorem test_operand_above_top : after (machine 0x0000 0x0000 false 0xFFFF [0x16]) =
    some (0x0000, 0x0000, false, 0xFFFF, some (.fault .addressOutOfRange)) := by decide +kernel

/-- T2: P is not TP. -/
theorem test_not_at_rest : nextState (commit { machine 1 2 true 8 [0x00] with targetPointer := 9 }) =
    some { machine 1 2 true 8 [0x00] with targetPointer := 9, outcome := some .noStep } := by decide +kernel

/-- T9. -/
theorem test_faulted : nextState (commit { machine 1 2 true 8 [0x00] with fault := some .divisionByZero }) =
    some { machine 1 2 true 8 [0x00] with fault := some .divisionByZero, outcome := some .noStep } := by
  decide +kernel

/-- R284, one tick of a schedule: an edit of Y, then a commit; the input is used up and the outcome is the step's. -/
theorem test_tick : (nextState (step
    { machine 0 0 false 0 [0x10, 0x00] with schedule := [⟨[.editReg .y 6], true⟩, ⟨[], false⟩] })).map
    (fun t => (t.x, t.y, t.targetPointer, t.outcome, t.schedule)) =
    some (0x0006, 0x0006, 0x0002, some .stepped, [⟨[], false⟩]) := by rfl

/-- A program placed for the host runs at once: the first step after reset is the SWP placed there. -/
theorem test_placed : (nextState (step ({ State.reset with x := 0x0100, y := 0x1234 }.withFetchWord 8 0x15))).map
    (fun t => (t.x, t.y, t.pointer, t.targetPointer)) = some (0x1234, 0x0100, 0x0000, 0x0001) := by rfl

/-! ## Requests (95, 2.7) -/

/-- H1. -/
theorem test_edit_cell : (readByte (applyRequest State.reset (.editCell 0x0100 0xAB)).mem 0x0100,
    readTag (applyRequest State.reset (.editCell 0x0100 0xAB)).tags 0x0100) = (0xAB, .unknown) := by decide +kernel

/-- H2. -/
theorem test_edit_reg : applyRequest State.reset (.editReg .y 0xBEEF) = { State.reset with y := 0xBEEF } := by decide

/-- H3: Transitioning until catch_up. -/
theorem test_edit_tp : (applyRequest (machine 0 0 false 9 []) (.editTp 0)).atRest = false ∧
    (applyRequests (machine 0 0 false 9 []) [.editTp 0, .catchUp]).pointer = 0x0000 := by decide

/-- H4: an edit does not clear the latch. -/
theorem test_edit_faulted : (nextState (tick { machine 7 0 false 0 [0x23] with fault := some .divisionByZero }
    ⟨[.editReg .y 1], true⟩)).map (fun t => (t.x, t.y, t.fault, t.outcome)) =
    some (0x0007, 0x0001, some .divisionByZero, some .noStep) := by rfl

/-- H5. -/
theorem test_reset : applyRequest { machine 7 0 true 0 [0x23] with fault := some .divisionByZero }
    (.reset [0x40]) = { State.reset with mem := [(0, 0x40)] } := by decide +kernel

/-! ## The scanner (95, part 4) -/

/-- The bytes of V1's image, and of PR3's. -/
def imageV1 : List Byte := [0x16, 0x00, 0x00, 0x12, 0x16, 0x01, 0x00, 0x03, 0x20, 0x01]

/-- The image of PR3. -/
def imagePR3 : List Byte := [0x16, 0x00, 0x00, 0x30, 0x16, 0x01, 0x00, 0x12, 0x24, 0x31, 0x00, 0x10, 0x15, 0x30, 0x00,
  0x08, 0x10, 0x00, 0x01]

/-- The tags a scan leaves. -/
def tagsAfter (choice : Nat → Bool) (p tp : Word) (a : Nat) (image : List Byte) : Tags :=
  (scanWith choice { State.reset with mem := loadBytes [] a image, pointer := p, targetPointer := tp }).tags

/-- S2: the mark at P, then the scan from TP. -/
theorem test_scan_two_pointers : tagsAfter (fun _ => false) 4 8 0 imageV1 =
    [(4, .instruction), (8, .instruction), (9, .instruction)] := by decide +kernel

/-- S4: all branches taken. -/
theorem test_scan_taken : tagsAfter (fun _ => true) 0 0 0 imagePR3 =
    [(0, .instruction), (1, .register), (2, .value), (3, .value), (4, .instruction), (5, .register), (6, .value),
     (7, .value), (8, .instruction), (9, .instruction), (10, .pointer), (11, .pointer), (16, .instruction),
     (17, .register), (18, .instruction)] := by decide +kernel

/-- S3: none taken. -/
theorem test_scan_not_taken : (tagsAfter (fun _ => false) 0 0 0 imagePR3).drop 12 =
    [(12, .instruction), (13, .instruction), (14, .pointer), (15, .pointer), (16, .instruction), (17, .register),
     (18, .instruction)] := by decide +kernel

/-- S5: `false, true, true` marks what S3 marks. -/
theorem test_scan_mixed : tagsAfter (fun j => j != 0) 0 0 0 imagePR3 = tagsAfter (fun _ => false) 0 0 0 imagePR3 := by
  decide +kernel

/-- S6: the image of PR1, its loop taken for ever. -/
theorem test_scan_loop : tagsAfter (fun _ => true) 8 8 0
    [0x16, 0x00, 0x00, 0x03, 0x16, 0x01, 0x00, 0x01, 0x21, 0x32, 0x00, 0x08, 0x01] =
    [(8, .instruction), (9, .instruction), (10, .pointer), (11, .pointer)] := by decide +kernel

/-- S7: 100 NOPs. -/
theorem test_scan_limit : tagsAfter (fun _ => false) 0 0 0 [] =
    (List.range 100).map (fun a => (a, .instruction)) := by decide +kernel

/-- S9: the operand bytes below the top are marked, then it stops. -/
theorem test_scan_top : tagsAfter (fun _ => false) 0xFFFE 0xFFFE 0xFFFE [0x16] =
    [(0xFFFE, .instruction), (0xFFFF, .register)] := by decide +kernel

/-- S10. -/
theorem test_scan_undefined : tagsAfter (fun _ => false) 0 0 0 [0x0B] = [(0, .instruction)] := by decide +kernel

/-- S11: 103 cells, 0x0000 to 0x0066. -/
theorem test_scan_data_pointer : (tagsAfter (fun _ => false) 0 0 0 [0x11, 0x00, 0x00, 0x02]).take 5 =
    [(0, .instruction), (1, .register), (2, .pointer), (3, .pointer), (4, .instruction)] ∧
    (tagsAfter (fun _ => false) 0 0 0 [0x11, 0x00, 0x00, 0x02]).length = 103 := by decide +kernel

/-! ## The assembler (V4, R108, R105) -/

/-- V4: a forward and a backward reference. -/
theorem test_labels : assemble "JMP end\nend: JMP end".toList = .ok [0x30, 0x00, 0x03, 0x30, 0x00, 0x03] := by rfl

/-- PR1's text: a label before its use, mnemonics in lower case (R100). -/
theorem test_loop : assemble "LDI x 0003\nLDI y 0001\nloop: sub\n\njnz loop\nHLT".toList =
    .ok [0x16, 0x00, 0x00, 0x03, 0x16, 0x01, 0x00, 0x01, 0x21, 0x32, 0x00, 0x08, 0x01] := by rfl

/-- R108: both failures, with their lines. -/
theorem test_assembly_fails : assemble "NOP\nJMP zz".toList = .error (.malformedOperand 2) ∧
    assemble "HALT".toList = .error (.unknownMnemonic 1) := ⟨rfl, rfl⟩

/-- R105: a label with an `x` in it, and one that is part of a mnemonic. -/
theorem test_label_refused : assemble "exit: NOP".toList = .error (.illFormedLabel 1) ∧
    assemble "op: NOP".toList = .error (.illFormedLabel 1) := ⟨rfl, rfl⟩

/-- R105: a label of hexadecimal letters is no hexadecimal operand of its own reference, but part of `0DEC` it is. -/
theorem test_hex_label : assemble "dec: SUB\nJNZ dec".toList = .ok [0x21, 0x32, 0x00, 0x00] ∧
    assemble "dec: JMP 0DEC".toList = .error (.illFormedLabel 1) := ⟨rfl, rfl⟩

/-- The model's choices of log entry 16: tokens and labels by their exact characters, one replacement a token, any word a
label's name. -/
theorem test_label_choices : assemble "MOV X".toList = .error (.malformedOperand 1) ∧
    assemble "LOOP: NOP\nJMP loop".toList = .error (.malformedOperand 2) ∧
    assemble "00: NOP\ne.d: JMP e.d".toList = .ok [0x00, 0x30, 0x00, 0x01] := ⟨rfl, rfl, rfl⟩

/-- The model's choices of log entry 17: a space before a label's colon is taken, and every colon is a label's. -/
theorem test_colon_choices : assemble "foo : NOP".toList = .ok [0x00] ∧
    assemble "JMP 00:10".toList = .error (.illFormedLabel 1) ∧
    assemble "JMP end\nend:".toList = .ok [0x30, 0x00, 0x03] := ⟨rfl, rfl, rfl⟩

/-! ## The outputs (R35, R240, D20) -/

/-- R240. -/
theorem test_fault_codes : [none, some Exc.divisionByZero, some .moduloByZero, some .addressOutOfRange].map faultCode =
    [0, 1, 2, 3] := by decide

/-- R35: the annotation table has the 23 rows, HLT's the second. -/
theorem test_opcode_table : opcodeTable.length = 23 ∧ opcodeTable[1]? = some ⟨0x01, "HLT", .n, ""⟩ := ⟨rfl, rfl⟩

/-! ## Witnesses of the obligations' hypotheses, clause by clause, at the ends of their ranges -/

/-- A machine at rest at `p`, with nothing in memory. -/
def idle (p : Word) : State := machine 0 0 false p []

theorem witness_encodeOfDecode : decode [0x10, 0x7F, 0x55] = .ok (.mov 0x7F, [0x55]) := rfl

theorem witness_selectors : (0x01 : Byte) ≠ 0x00 ∧ (0xFF : Byte) ≠ 0x00 := by decide

/-- NOP, SWP, ADD, SUB, MUL, SCF, CCF: the last place with a next address, and the first without one. -/
theorem witness_oneByte : (idle 0xFFFE).pointer.toNat + 1 ≤ 0xFFFF ∧ (idle 0xFFFF).pointer = 0xFFFF := by decide

/-- MOV, both selectors; two SWPs; ADD then SUB. -/
theorem witness_twoBytes : (idle 0xFFFD).pointer.toNat + 2 ≤ 0xFFFF ∧ 0xFFFF < (idle 0xFFFE).pointer.toNat + 2 := by
  decide

/-- LDI. -/
theorem witness_fourBytes : (idle 0xFFFB).pointer.toNat + 4 ≤ 0xFFFF ∧ 0xFFFF < (idle 0xFFFC).pointer.toNat + 4 := by
  decide

theorem witness_hlt : (machine 1 2 true 0xFFFF [0x01]).Ready ∧
    readByte (machine 1 2 true 0xFFFF [0x01]).mem (machine 1 2 true 0xFFFF [0x01]).pointer.toNat = 0x01 := by
  decide +kernel

/-- LOD and STO: the last address with a word, and each way to fault alone. -/
theorem witness_absolute : Memory.wf (idle 0xFFFB).mem = true ∧ (0xFFFE : Word) ≠ 0xFFFF ∧
    (idle 0xFFFB).pointer.toNat + 4 ≤ 0xFFFF ∧ 0xFFFF < (idle 0xFFFC).pointer.toNat + 4 := by decide

/-- LDR and STR: X at the last address with a word, and each way to fault alone. -/
theorem witness_indirect : Memory.wf (machine 0xFFFE 1 false 0xFFFD []).mem = true ∧
    (machine 0xFFFE 1 false 0xFFFD []).x ≠ 0xFFFF ∧ (machine 0xFFFE 1 false 0xFFFD []).pointer.toNat + 2 ≤ 0xFFFF ∧
    (machine 0xFFFF 1 false 0 []).x = 0xFFFF ∧ 0xFFFF < (machine 0 1 false 0xFFFE []).pointer.toNat + 2 := by decide

/-- DIV and MOD, and the division identity. -/
theorem witness_division : (machine 7 0 false 0xFFFF []).y = 0 ∧ (machine 7 1 false 0xFFFE []).y ≠ 0 ∧
    (machine 7 1 false 0xFFFE []).pointer.toNat + 1 ≤ 0xFFFF ∧ (machine 7 1 false 0xFFFF []).y ≠ 0 ∧
    (machine 7 1 false 0xFFFF []).pointer = 0xFFFF := by decide

/-- JMP to itself. -/
theorem witness_jmp : (0xFFFD : Word) = (machine 0 0 false 0xFFFD [0x30, 0xFF, 0xFD]).pointer ∧
    (machine 0 0 false 0xFFFD [0x30, 0xFF, 0xFD]).Ready ∧
    Holds (machine 0 0 false 0xFFFD [0x30, 0xFF, 0xFD]) 0xFFFD (.jmp 0xFFFD) := by decide +kernel

/-- The conditional jumps not taken: the last place with a next address, and the first without one. -/
theorem witness_notTaken : (idle 0xFFFC).pointer.toNat + 3 ≤ 0xFFFF ∧ 0xFFFF < (idle 0xFFFD).pointer.toNat + 3 := by
  decide

/-- Each jump at the lowest place where its operand does not fit. -/
theorem witness_jumpOperand : ([.jmp, .jz, .jnz, .jc, .jnc, .jge, .jl] : List Op).all (fun op =>
    decide ((machine 0 0 false 0xFFFE [op.opcode]).Ready) &&
      readByte (machine 0 0 false 0xFFFE [op.opcode]).mem 0xFFFE == op.opcode) = true := by decide +kernel

/-- Each of the six conditions, met and not met. -/
theorem witness_conditions : (idle 0).x.toNat = 0 ∧ ¬(idle 0).x.toNat ≠ 0 ∧ (machine 1 1 true 0 []).x.toNat ≠ 0 ∧
    ¬(machine 1 1 true 0 []).x.toNat = 0 ∧ (machine 1 1 true 0 []).carry = true ∧ ¬(idle 0).carry = true ∧
    (idle 0).carry = false ∧ ¬(machine 1 1 true 0 []).carry = false ∧
    (machine 1 1 true 0 []).x.toNat ≥ (machine 1 1 true 0 []).y.toNat ∧
    ¬(machine 0 0xFFFF true 0 []).x.toNat ≥ (machine 0 0xFFFF true 0 []).y.toNat ∧
    (machine 0 0xFFFF true 0 []).x.toNat < (machine 0 0xFFFF true 0 []).y.toNat ∧
    ¬(machine 1 1 true 0 []).x.toNat < (machine 1 1 true 0 []).y.toNat := by decide

/-- SCF then JC at the last place both fit. -/
theorem witness_flagThenJump : (idle 0xFFFB).pointer.toNat + 4 ≤ 0xFFFF := by decide

theorem witness_carryOnly : (∃ t, exec .nop (idle 0) = .next t) ∧ Instr.nop ∉ [Instr.add, .sub, .scf, .ccf] ∧
    ∀ image, Request.editTp 0 ≠ .reset image := ⟨⟨_, rfl⟩, by decide, fun _ => by simp⟩

/-- A scheduled input: an edit makes the byte at P an MOV's. -/
theorem witness_scheduledStep : (applyRequests (idle 0xFFFC) [.editCell 0xFFFC 0x10]).Ready ∧
    decode (fetchBytes (applyRequests (idle 0xFFFC) [.editCell 0xFFFC 0x10]).mem
      (applyRequests (idle 0xFFFC) [.editCell 0xFFFC 0x10]).pointer) = .ok (.mov 0x00, [0x00, 0x00]) ∧
    { idle 0xFFFC with schedule := [⟨[.editCell 0xFFFC 0x10], true⟩] }.schedule =
      [⟨[.editCell 0xFFFC 0x10], true⟩] := ⟨by decide +kernel, rfl, rfl⟩

/-- Nothing scheduled. -/
theorem witness_unscheduledStep : (idle 0xFFFF).schedule = [] ∧ (idle 0xFFFF).fault = none ∧
    decode (fetchBytes (idle 0xFFFF).mem (idle 0xFFFF).targetPointer) = .ok (.nop, []) := ⟨rfl, rfl, rfl⟩

theorem witness_holds : (machine 0 0 false 0xFFFC [0x16, 0x01, 0xAB, 0xCD]).Ready ∧
    Holds (machine 0 0 false 0xFFFC [0x16, 0x01, 0xAB, 0xCD]) 0xFFFC (.ldi 0x01 0xABCD) := by decide +kernel

/-- Transitioning, and faulted. -/
theorem witness_notReady : ¬({ idle 0 with targetPointer := 1 } : State).Ready ∧
    ¬({ idle 0 with fault := some .moduloByZero } : State).Ready := by decide

/-- Operands of one, two and three bytes, each at its lowest place that does not fit. -/
theorem witness_operandRange :
    ((machine 0 0 false 0xFFFF [0x10]).Ready ∧ lookup (readByte (machine 0 0 false 0xFFFF [0x10]).mem 0xFFFF) = some .mov ∧
      0xFFFF < 0xFFFF + Op.mov.length - 1) ∧
    ((machine 0 0 false 0xFFFE [0x30]).Ready ∧ lookup (readByte (machine 0 0 false 0xFFFE [0x30]).mem 0xFFFE) = some .jmp ∧
      0xFFFF < 0xFFFE + Op.jmp.length - 1) ∧
    (machine 0 0 false 0xFFFD [0x16]).Ready ∧ lookup (readByte (machine 0 0 false 0xFFFD [0x16]).mem 0xFFFD) = some .ldi ∧
      0xFFFF < 0xFFFD + Op.ldi.length - 1 := by decide +kernel

theorem witness_unknownOpcode : (machine 0 0 false 0 [0x02]).Ready ∧
    undefinedOpcode (readByte (machine 0 0 false 0 [0x02]).mem 0) = true ∧ (machine 0 0 false 0xFFFF [0xFF]).Ready ∧
    undefinedOpcode (readByte (machine 0 0 false 0xFFFF [0xFF]).mem 0xFFFF) = true := by decide +kernel

/-- A fault, a halt and a NoStep. -/
theorem witness_notStepped : (∃ t, commit (machine 7 0 false 0 [0x23]) = .next t ∧
      t.outcome = some (.fault .divisionByZero)) ∧
    (∃ t, commit (machine 7 0 false 0 [0x01]) = .next t ∧ t.outcome = some .halted) ∧
    ∃ t, commit { idle 0 with targetPointer := 1 } = .next t ∧ t.outcome = some .noStep :=
  ⟨⟨_, rfl, rfl⟩, ⟨_, rfl, rfl⟩, ⟨_, rfl, rfl⟩⟩

/-- A sequential next address and a jump's; an instruction that is no store. -/
theorem witness_stepped : (∃ t, exec .nop (idle 0) = .next t ∧ t.outcome = some .stepped) ∧
    (∃ t, exec (.jmp 0xFFFF) (idle 0) = .next t ∧ t.outcome = some .stepped) ∧ Instr.nop.op ≠ .sto ∧
    Instr.nop.op ≠ .str := ⟨⟨_, rfl, rfl⟩, ⟨_, rfl, rfl⟩, by decide, by decide⟩

/-- At the top: HLT, an undefined opcode, DIV with Y = 0, MOD with Y = 0, and an opcode that is none of these. -/
theorem witness_top : ([0x01, 0x02, 0x23, 0x24, 0x20] : List Byte).all (fun b =>
      decide ((machine 0 0 false 0xFFFF [b]).Ready) && readByte (machine 0 0 false 0xFFFF [b]).mem 0xFFFF == b) = true ∧
    ([0x01, 0x02, 0x23, 0x24, 0x20] : List Byte).map undefinedOpcode = [false, true, false, false, false] := by
  decide +kernel

theorem witness_faulted : ({ idle 0 with fault := some .addressOutOfRange } : State).fault = some .addressOutOfRange ∧
    (∀ image, Request.reset image ∉ (⟨[.editTp 1], true⟩ : TickInput).requests) ∧
    ∀ image, Request.reset image ∉ (⟨[], false⟩ : TickInput).requests := ⟨rfl, by simp, by simp⟩

theorem witness_unscheduled : State.reset.schedule = [] ∧ State.reset.fault = none := ⟨rfl, rfl⟩

/-- A store at the last address with a word, and one whose next word exists. -/
theorem witness_storedWord : Memory.wf [] = true ∧ writeWord [] 0xFFFE 0x1234 = some [(0xFFFE, 0x12), (0xFFFF, 0x34)] ∧
    writeWord [] 0xFFFD 0x1234 = some [(0xFFFD, 0x12), (0xFFFE, 0x34)] ∧ (0xFFFD : Word) ≠ 0xFFFE := by decide +kernel

/-- STO x FFFE at 0xFFFA with X = 0x0100: the next step is the HLT it stores. -/
theorem witness_storeSeen : (machine 0x0100 0 false 0xFFFA [0x12, 0x00, 0xFF, 0xFE]).Ready ∧
    Memory.wf (machine 0x0100 0 false 0xFFFA [0x12, 0x00, 0xFF, 0xFE]).mem = true ∧ 0xFFFA + 5 ≤ 0xFFFF ∧
    Holds (machine 0x0100 0 false 0xFFFA [0x12, 0x00, 0xFF, 0xFE]) 0xFFFA (.sto 0x00 (0xFFFA + 4)) ∧
    encode .hlt =
      [BitVec.ofNat 8 (selectedValue 0x00 (machine 0x0100 0 false 0xFFFA [0x12, 0x00, 0xFF, 0xFE]) / 256)] := by
  decide +kernel

/-- Two states that differ in their tags. -/
theorem witness_tags : AgreeButTags (idle 0) { idle 0 with tags := [(0, .pointer)], scans := 5 } ∧
    ∃ t, step (idle 0) = .next t := ⟨by decide, _, rfl⟩

theorem witness_scanStops : readByte (machine 0 0 false 0xFFFF [0x01]).mem 0xFFFF = 0x01 ∧
    undefinedOpcode (readByte (machine 0 0 false 0 [0x0B]).mem 0) = true := by decide +kernel

/-- An operation at TP whose next visit stops the scan, for every bit: after a LOD, at a jump's target that is its own
operand byte; and none next: operand bytes above the top, a next address above it. -/
theorem witness_scanTwoVisits :
    (lookup (readByte (machine 0 0 false 0 [0x11, 1, 1, 0, 1]).mem 0) = some .lod ∧
      StopsScan (readByte (machine 0 0 false 0 [0x11, 1, 1, 0, 1]).mem
        (nextVisit .lod false (machine 0 0 false 0 [0x11, 1, 1, 0, 1])))) ∧
    (lookup (readByte (machine 0 0 false 0 [0x30, 0, 2]).mem 0) = some .jmp ∧
      nextVisit .jmp true (machine 0 0 false 0 [0x30, 0, 2]) = 2 ∧
      StopsScan (readByte (machine 0 0 false 0 [0x30, 0, 2]).mem 2)) ∧
    (lookup (readByte (machine 0 0 false 0xFFFE [0x16]).mem 0xFFFE) = some .ldi ∧
      ¬lastByteAtTp .ldi (machine 0 0 false 0xFFFE [0x16]) ≤ 0xFFFF) ∧
    lookup (readByte (machine 0 0 false 0xFFFD [0x31]).mem 0xFFFD) = some .jz ∧
      lastByteAtTp .jz (machine 0 0 false 0xFFFD [0x31]) = 0xFFFF ∧
      ¬nextVisit .jz false (machine 0 0 false 0xFFFD [0x31]) ≤ 0xFFFF := by decide +kernel

/-- NOPs alone from TP on, and a scan that reaches the top. -/
theorem witness_hundredNops : (∀ k, k < 100 → 0 + k ≤ 0xFFFF → readByte (idle 0).mem (0 + k) = 0x00) ∧
    ∀ k, k < 100 → 0xFFF0 + k ≤ 0xFFFF → readByte (idle 0xFFF0).mem (0xFFF0 + k) = 0x00 :=
  ⟨fun _ _ _ => rfl, fun _ _ _ => rfl⟩

/-- A JMP to itself with an HLT after it, as high as it fits. -/
theorem witness_selfJump : Holds (machine 0 0 false 0xFFFC [0x30, 0xFF, 0xFC, 0x01]) 0xFFFC (.jmp 0xFFFC) ∧
    0xFFFC + 3 ≤ 0xFFFF ∧ (machine 0 0 false 0xFFFC [0x30, 0xFF, 0xFC, 0x01]).pointer.toNat ≠ 0xFFFC + 3 ∧
    StopsScan (readByte (machine 0 0 false 0xFFFC [0x30, 0xFF, 0xFC, 0x01]).mem (0xFFFC + 3)) := by decide +kernel

/-- The empty image and the longest one; the shortest that is refused; a text that does not assemble. -/
theorem witness_images : ([] : List Byte).length ≤ 65536 ∧ (List.replicate 65536 (0xFF : Byte)).length ≤ 65536 ∧
    65536 < (List.replicate 65537 (0xFF : Byte)).length ∧
    assemble "HALT".toList = .error (.unknownMnemonic 1) := by
  refine ⟨by decide, by rw [List.length_replicate], ?_, rfl⟩
  rw [List.length_replicate]; decide

theorem witness_requests : Memory.wf (idle 0xFFFF).mem = true ∧ (idle 0xFFFF).pointer = (idle 0xFFFF).targetPointer := by
  decide

theorem witness_invariant : State.reset.Inv ∧ ∃ t, step State.reset = .next t := ⟨by decide, _, rfl⟩

end Sys2Proof.Tests
end

section
/-! PROOFS. The state (spec/10_state.md): what an instruction, a step request, a reset and a whole tick keep of it.
Everything is read off the case lemmas of Laws/Exec, Laws/Engine and Laws/Ops. -/

namespace Sys2Proof.Machine

/-! ## What a step request and a tick can do -/

/-- What the answer of a step request can be: an outcome other than Stepped and nothing else, an exception taken, or the
effect of an instruction and a next address that fits. -/
theorem commit_answers {s t : State} (h : commit s = .next t) :
    (∃ o, o ≠ .stepped ∧ t = { s with outcome := some o }) ∨ (∃ e, t = s.faulted e) ∨
    ∃ i after n, n ≤ 0xFFFF ∧ Effect i s after n ∧
      t = { after with targetPointer := BitVec.ofNat 16 n, outcome := some .stepped } := by
  rcases commit_cases h with ⟨_, rfl⟩ | ⟨_, ⟨i, hi⟩ | rfl | rfl⟩
  · exact .inl ⟨.noStep, by decide, rfl⟩
  · rcases exec_answers hi with ⟨e, rfl⟩ | ⟨_, rfl⟩ | ⟨after, n, hn, he, rfl⟩
    · exact .inr (.inl ⟨e, rfl⟩)
    · exact .inl ⟨.halted, by decide, rfl⟩
    · exact .inr (.inr ⟨i, after, n, hn, he, rfl⟩)
  · exact .inl ⟨.unknownOpcode, by decide, rfl⟩
  · exact .inr (.inl ⟨_, rfl⟩)

/-- A step is the tick of the schedule's next input, with that input used up (log entry 1). -/
theorem step_eq_tick (s : State) : step s = tick { s with schedule := s.schedule.tail } (nextInput s) := rfl

/-- Everything a tick can do after its requests and its scan (R284): a step request, or no outcome. -/
theorem tick_cases {s t : State} {inp : TickInput} (h : tick s inp = .next t) :
    commit (scan (applyRequests s inp.requests)) = .next t ∨
    t = { scan (applyRequests s inp.requests) with outcome := none } := by
  cases hc : inp.commit with
  | true =>
    rw [tick_commit hc] at h
    exact .inl h
  | false =>
    rw [tick_idle hc] at h
    injection h with h
    exact .inr h.symm

/-! ## States that agree but for their tags (R34, R211) -/

theorem agreeButTags_retag (g : Tags) (n : Nat) (s : State) : AgreeButTags s (retag g n s) :=
  ⟨rfl, rfl, rfl, rfl, rfl, rfl, rfl, rfl, rfl⟩

/-- States that agree but for tags and scan counter differ by a change of those two fields. -/
theorem agreeButTags_exists_retag {s s' : State} (h : AgreeButTags s s') : ∃ g n, s' = retag g n s := by
  obtain ⟨hmem, hx, hy, hcarry, hp, htp, hfault, houtcome, hschedule⟩ := h
  exact ⟨s'.tags, s'.scans, by simp only [retag, hmem, hx, hy, hcarry, hp, htp, hfault, houtcome, hschedule]⟩

/-- No request reads a tag or the scan counter. -/
theorem agreeButTags_applyRequest {s s' : State} (h : AgreeButTags s s') (r : Request) :
    AgreeButTags (applyRequest s r) (applyRequest s' r) := by
  obtain ⟨g, n, rfl⟩ := agreeButTags_exists_retag h
  cases r with
  | reset image =>
    rcases Nat.lt_or_ge 65536 image.length with hl | hl
    · simpa only [applyRequest, resetWith_over hl] using h
    · simp only [applyRequest, resetWith_fits hl]
      exact agreeButTags_retag State.reset.tags n _
  | catchUp => exact agreeButTags_retag ..
  | editCell a b => exact agreeButTags_retag g n { s with mem := writeByte s.mem a.toNat b }
  | editReg r v =>
    simp only [applyRequest, retag_setReg]
    exact agreeButTags_retag ..
  | editTp v => exact agreeButTags_retag g n { s with targetPointer := v }

theorem agreeButTags_applyRequests {s s' : State} (h : AgreeButTags s s') (rs : List Request) :
    AgreeButTags (applyRequests s rs) (applyRequests s' rs) := by
  induction rs generalizing s s' with
  | nil => exact h
  | cons r rest ih => exact ih (agreeButTags_applyRequest h r)

/-- A scan writes tags and the scan counter only (R211). -/
theorem agreeButTags_scan {s s' : State} (h : AgreeButTags s s') : AgreeButTags (scan s) (scan s') := h

/-- No step request reads a tag or the scan counter. -/
theorem agreeButTags_commit {s s' t : State} (h : AgreeButTags s s') (ht : commit s = .next t) :
    ∃ t', commit s' = .next t' ∧ AgreeButTags t t' := by
  obtain ⟨g, n, rfl⟩ := agreeButTags_exists_retag h
  exact ⟨retag g n t, by rw [commit_retag, ht, mapNext], agreeButTags_retag g n t⟩

/-- No tick reads a tag or the scan counter it starts from. -/
theorem agreeButTags_tick {s s' t : State} {inp : TickInput} (h : AgreeButTags s s') (ht : tick s inp = .next t) :
    ∃ t', tick s' inp = .next t' ∧ AgreeButTags t t' := by
  have hready := agreeButTags_scan (agreeButTags_applyRequests h inp.requests)
  cases hc : inp.commit with
  | true =>
    rw [tick_commit hc] at ht ⊢
    exact agreeButTags_commit hready ht
  | false =>
    rw [tick_idle hc] at ht ⊢
    injection ht with ht
    subst ht
    obtain ⟨hmem, hx, hy, hcarry, hp, htp, hfault, _, hschedule⟩ := hready
    exact ⟨_, rfl, hmem, hx, hy, hcarry, hp, htp, hfault, rfl, hschedule⟩

/-- Settles O45: the two states differ by `retag`, which commutes with every part of the tick, and the schedule they share
gives both the same input. -/
theorem tagsAreNeverObserved : Obligations.TagsAreNeverObserved := by
  intro s s' t h ht
  obtain ⟨g, n, rfl⟩ := agreeButTags_exists_retag h
  rw [step_eq_tick] at ht ⊢
  exact agreeButTags_tick (agreeButTags_retag g n { s with schedule := s.schedule.tail }) ht

/-! ## The invariant (R32, R50, R59) -/

theorem commit_inv {s t : State} (hs : s.Inv) (h : commit s = .next t) : t.Inv := by
  rcases commit_answers h with ⟨o, _, rfl⟩ | ⟨e, rfl⟩ | ⟨i, after, n, _, he, rfl⟩
  · exact hs
  · exact hs
  · exact ⟨he.wf hs.1, he.tags ▸ hs.2⟩

theorem tick_inv {s t : State} {inp : TickInput} (hs : s.Inv) (h : tick s inp = .next t) : t.Inv := by
  have hready : (scan (applyRequests s inp.requests)).Inv := scan_inv (applyRequests_inv hs).1
  rcases tick_cases h with h | rfl
  · exact commit_inv hready h
  · exact hready

/-- Settles O52: a step is a tick, and the requests, the scan and the step request of a tick each keep the invariant. -/
theorem everyStepKeepsTheInvariant : Obligations.EveryStepKeepsTheInvariant := by
  intro s t hs h
  rw [step_eq_tick] at h
  refine tick_inv ?_ h
  exact hs

/-! ## What one instruction writes -/

theorem exec_carry {i : Instr} {s t : State} (h : exec i s = .next t) (hi : i ∉ [Instr.add, .sub, .scf, .ccf]) :
    t.carry = s.carry := by
  rcases exec_answers h with ⟨e, rfl⟩ | ⟨_, rfl⟩ | ⟨after, n, _, he, rfl⟩
  · rfl
  · rfl
  · exact he.carry hi

/-- A request that is not reset leaves C alone (R286 to R289). -/
theorem applyRequest_carry {s : State} {r : Request} (h : ∀ image, r ≠ .reset image) :
    (applyRequest s r).carry = s.carry := by
  cases r with
  | reset image => exact absurd rfl (h image)
  | catchUp => rfl
  | editCell a b => rfl
  | editReg r v => exact setReg_carry s v r
  | editTp v => rfl

/-- Settles O28: the carry clause of `Effect`, the reset value, and the requests one by one. -/
theorem onlyFourInstructionsWriteTheCarry : Obligations.OnlyFourInstructionsWriteTheCarry :=
  ⟨fun _ _ _ => exec_carry, rfl, fun _ _ => applyRequest_carry⟩

/-- Settles O35: the frame of `Effect`, and of the answers that have no effect. -/
theorem engineNeverWritesPointerOrTags : Obligations.EngineNeverWritesPointerOrTags := by
  intro s t h
  rcases commit_answers h with ⟨o, _, rfl⟩ | ⟨e, rfl⟩ | ⟨i, after, n, _, he, rfl⟩
  · exact ⟨rfl, rfl, rfl, rfl, fun _ => rfl⟩
  · exact ⟨rfl, rfl, rfl, rfl, fun _ => rfl⟩
  · exact ⟨he.pointer, he.tags, he.schedule, he.scans, fun ho => absurd rfl ho⟩

/-- Settles O36: only an answer with an effect has outcome Stepped, and `Effect` says which next address it computed. -/
theorem nextAddressIsSequentialOrTheOperand : Obligations.NextAddressIsSequentialOrTheOperand := by
  intro i s t h ho
  rcases exec_answers h with ⟨e, rfl⟩ | ⟨_, rfl⟩ | ⟨after, n, hn, he, rfl⟩
  · simp at ho
  · simp at ho
  · simpa only [toNat_nextAddress hn] using he.next

/-- Settles O37: the memory clause of `Effect`. -/
theorem onlyStoAndStrWriteMemory : Obligations.OnlyStoAndStrWriteMemory := by
  intro i s t h hsto hstr
  rcases exec_answers h with ⟨e, rfl⟩ | ⟨_, rfl⟩ | ⟨after, n, _, he, rfl⟩
  · rfl
  · rfl
  · exact he.mem hsto hstr

/-! ## Reset (R37, R280, R282) -/

/-- Settles O48: the image stands from address 0 on, and every other piece of state is that of `State.reset`. -/
theorem resetSetsEveryPieceOfState : Obligations.ResetSetsEveryPieceOfState := by
  intro s image hl
  refine ⟨_, resetWith_fits hl, fun a ha => ?_, fun a ha => ?_, fun _ => rfl, rfl, rfl, rfl, rfl, rfl, rfl⟩
  · have hread := readByte_loadBytes (m := []) (a := 0) rfl (by rw [Nat.zero_add]; exact hl) ha
    rwa [Nat.zero_add] at hread
  · exact readByte_loadBytes_other (.inr (by omega))

/-- Settles O51: whatever the state before, a reset with an image that fits loads it into empty memory. -/
theorem resetStateMeetsTheInvariant : Obligations.ResetStateMeetsTheInvariant := by
  refine ⟨⟨rfl, rfl⟩, fun s image hl => ?_⟩
  rw [applyRequest, resetWith_fits hl]
  exact ⟨loadBytes_wf rfl (by rw [Nat.zero_add]; exact hl), rfl⟩

/-! ## Selectors that name the same register (R22, R83) -/

theorem loadFrom_selReg_congr {sel sel' : Byte} (h : selReg sel = selReg sel') (a : Word) (len : Nat) (s : State) :
    loadFrom sel a len s = loadFrom sel' a len s := by
  simp only [loadFrom, h]

theorem storeTo_selReg_congr {sel sel' : Byte} (h : selReg sel = selReg sel') (a : Word) (len : Nat) (s : State) :
    storeTo sel a len s = storeTo sel' a len s := by
  simp only [storeTo, h]

theorem execMov_selReg_congr {sel sel' : Byte} (h : selReg sel = selReg sel') (s : State) :
    execMov sel s = execMov sel' s := by
  simp only [execMov, h]

theorem execLdi_selReg_congr {sel sel' : Byte} (h : selReg sel = selReg sel') (imm : Word) (s : State) :
    execLdi sel imm s = execLdi sel' imm s := by
  simp only [execLdi, h]

/-- Settles O5: the selector byte enters the six meanings only through `selReg`, which takes every non-zero byte to Y. -/
theorem everySelectorButZeroNamesY : Obligations.EverySelectorButZeroNamesY := by
  refine fun sel w s => ⟨selReg_zero, fun hsel => ?_⟩
  have h : selReg sel = selReg 0x01 := selReg_ne hsel
  exact ⟨h, execMov_selReg_congr h s, loadFrom_selReg_congr h w 4 s, storeTo_selReg_congr h w 4 s,
    loadFrom_selReg_congr h s.indirectAddr 2 s, storeTo_selReg_congr h s.indirectAddr 2 s, execLdi_selReg_congr h w s⟩

end Sys2Proof.Machine
end

section
/-! PROOFS. Memory (spec/20_memory.md): the fetch reads the bytes the stores write, and a stored word is loaded back.
Everything is read off `writeWord_spec`, the one lemma that says what a store of a word does, and `fetch_of_holds`. -/

namespace Sys2Proof.Machine

/-! ## The instruction at P -/

/-- Settles O30: what the fetch decodes at P is `i`, and a step request of a ready state executes what is fetched. -/
theorem commitExecutesTheInstructionAtP : Obligations.CommitExecutesTheInstructionAtP := by
  intro s i ⟨hat, hfault⟩ hi
  rw [commit_eligible hat hfault, runStep_exec (fetch_of_holds hi)]

/-- One byte is enough to hold an instruction of length 1: it fits at every address (R125). -/
theorem holds_of_oneByte {s : State} {a : Word} {i : Instr} {b : Byte} (hi : encode i = [b])
    (hb : readByte s.mem a.toNat = b) : Holds s a i := by
  have hlen : i.op.length = 1 := by rw [← length_encode, hi, List.length_singleton]
  have ha := a.isLt
  refine ⟨decide_eq_true ?_, fun k hk => ?_⟩
  · rw [hlen, Config.topAddress]
    omega
  · obtain rfl : k = 0 := by rw [hi, List.length_singleton] at hk; omega
    simpa only [hi, List.getElem_cons_zero, Nat.add_zero] using hb

/-! ## A stored word (R51, R53) -/

/-- Only at 0xFFFF does a store of a word not answer (R10, R59). -/
theorem ne_top_of_writeWord {m n : Memory} {a v : Word} (h : writeWord m a v = some n) : a ≠ 0xFFFF := by
  rintro rfl
  rw [writeWord_top] at h
  cases h

/-- Settles O42: the two bytes `writeWord_spec` gives make the word at `a`; the word at `a + 1` takes the second of them
first, and then the byte at `a + 2`, which the store keeps. -/
theorem storedWordIsLoadedBack : Obligations.StoredWordIsLoadedBack := by
  intro m n a v hm h
  have ha := ne_top_of_writeWord h
  obtain ⟨_, hhi, hlo, hother⟩ := writeWord_spec h hm
  refine ⟨?_, ?_, ?_, fun ha' => ?_⟩
  · rw [readWord_eq ha, hhi, hlo, bytesToWord_hi_lo]
  · rw [hhi, toNat_hiByte]
  · rw [hlo, toNat_loByte]
  · have hnext : (a + 1).toNat = a.toNat + 1 := by bv_omega
    have hin : a + 1 ≠ 0xFFFF := by bv_omega
    refine ⟨_, readWord_eq hin, ?_⟩
    rw [toNat_bytesToWord, hnext, hlo, toNat_loByte, hother (a.toNat + 2) (by omega) (by omega)]

/-! ## A store just before the fetch (R64) -/

/-- The high byte a store of the selected register writes, in the form O43 names it. -/
theorem hiByte_getReg_selReg (s : State) (sel : Byte) :
    hiByte (s.getReg (selReg sel)) = BitVec.ofNat 8 (selectedValue sel s / 256) := by
  apply BitVec.eq_of_toNat_eq
  have hv := (s.getReg (selReg sel)).isLt
  rw [toNat_hiByte, BitVec.toNat_ofNat, ← getReg_selReg]
  omega

/-- A STO whose word and whose next address are in range completes with the stored memory (R143). -/
theorem execSto_fits {s : State} {sel : Byte} {addr : Word} (ha : addr ≠ 0xFFFF) (hp : s.pointer.toNat + 4 ≤ 0xFFFF) :
    ∃ m, writeWord s.mem addr (s.getReg (selReg sel)) = some m ∧ exec (.sto sel addr) s =
      .next { s with mem := m, targetPointer := BitVec.ofNat 16 (s.pointer.toNat + 4), outcome := some .stepped } := by
  refine ⟨_, writeWord_eq ha, ?_⟩
  rw [exec, execSto, storeTo, writeWord_eq ha]
  exact writeback_fits hp

/-- Settles O43: the STO completes with TP at the byte after itself, where the first of the bytes it stored, the opcode of
`i`, now stands; so the caught-up state holds `i` at P, and O30 gives its commit. -/
theorem storeIsSeenByTheNextFetch : Obligations.StoreIsSeenByTheNextFetch := by
  intro s sel i hready hwf hp hsto hi
  have haddr : (s.pointer + 4).toNat = s.pointer.toNat + 4 := by bv_omega
  obtain ⟨m, hm, hexec⟩ := execSto_fits (s := s) (sel := sel) (addr := s.pointer + 4) (by bv_omega) (by omega)
  obtain ⟨_, hhi, _⟩ := writeWord_spec hm hwf
  refine ⟨_, (commitExecutesTheInstructionAtP s _ hready hsto).trans hexec, ?_⟩
  refine commitExecutesTheInstructionAtP _ i ⟨rfl, hready.2⟩ (holds_of_oneByte hi ?_)
  rw [← hiByte_getReg_selReg, ← hhi, haddr, caughtUp_pointer, toNat_nextAddress (by omega), caughtUp_mem]

end Sys2Proof.Machine
end

section
/-! PROOFS. The encoding (spec/30_encoding.md R80 to R88): decoder and encoder undo each other, and the opcode table has a
row for exactly the 23 defined bytes. Everything is read off the laws of the table and of the operands in Laws/Decode. -/

namespace Sys2Proof.Machine

/-! ## Decode and encode (R80 to R83) -/

/-- What is decoded has a defined opcode first, and then bytes that the operands decode from. -/
theorem exists_op_of_decode_ok {b : Byte} {bytes rest : List Byte} {i : Instr}
    (h : decode (b :: bytes) = .ok (i, rest)) :
    ∃ op, lookup b = some op ∧ decodeOperands op bytes = some (i, rest) := by
  rw [decode] at h
  split at h
  · cases h
  next op hop =>
    split at h
    · cases h
    next found hfound =>
      cases h
      exact ⟨op, hop, hfound⟩

/-- Settles O2: the opcode byte is found in the table, and the operand bytes decode to the instruction. -/
theorem decodeOfEncodeIsTheInstruction : Obligations.DecodeOfEncodeIsTheInstruction := by
  intro i rest
  rw [encode, List.cons_append, decode, lookup_opcode]
  simp only [decodeOperands_operandBytes]

/-- Settles O3: the first byte is the opcode of the row found, and the bytes after it are the operand bytes and the rest. -/
theorem encodeOfDecodeIsTheBytes : Obligations.EncodeOfDecodeIsTheBytes := by
  intro bytes rest i h
  cases bytes with
  | nil => cases h
  | cons b bytes =>
    obtain ⟨op, hop, hoperands⟩ := exists_op_of_decode_ok h
    obtain ⟨hi, hbytes⟩ := decodeOperands_sound hoperands
    rw [encode, hi, opcode_of_lookup hop, List.cons_append, hbytes]

/-- Settles O1: each of the six words is, byte by byte, the encoding of the instruction it stands for. -/
theorem wordsOfEachFormatDecode : Obligations.WordsOfEachFormatDecode :=
  ⟨decodeOfEncodeIsTheInstruction .mod [], decodeOfEncodeIsTheInstruction (.ldr 0x7F) [],
    decodeOfEncodeIsTheInstruction (.sto 0x00 0x0102) [], decodeOfEncodeIsTheInstruction (.ldi 0x01 0xABCD) [],
    decodeOfEncodeIsTheInstruction (.jnz 0x1234) [], decodeOfEncodeIsTheInstruction .ccf []⟩

/-! ## The undefined opcodes (R84, R87) -/

/-- No row's opcode lies in a range of R87. -/
theorem undefinedOpcode_opcode (op : Op) : undefinedOpcode op.opcode = false := by
  cases op <;> rfl

/-- Every byte outside the ranges of R87 is the opcode of a row. -/
theorem exists_opcode_of_not_undefined : ∀ b : Byte, undefinedOpcode b = false → ∃ op ∈ Op.all, op.opcode = b := by
  decide

theorem lookup_eq_none {b : Byte} : lookup b = none ↔ undefinedOpcode b = true := by
  refine ⟨fun h => ?_, fun h => ?_⟩
  · by_contra hdefined
    obtain ⟨op, _, rfl⟩ := exists_opcode_of_not_undefined b (Bool.eq_false_iff.mpr hdefined)
    cases (lookup_opcode op).symm.trans h
  · rw [Option.eq_none_iff_forall_ne_some]
    intro op hop
    rw [← opcode_of_lookup hop, undefinedOpcode_opcode] at h
    cases h

/-- Settles O4: a byte has a row exactly when it is outside the ranges of R87; these hold 233 bytes, by counting. -/
theorem lookupFollowsTheOpcodeMap : Obligations.LookupFollowsTheOpcodeMap :=
  ⟨fun _ => lookup_eq_none, fun _ _ => lookup_eq_some, rfl⟩

end Sys2Proof.Machine
end

section
/-! PROOFS. The assembler on written programs (spec/30_encoding.md R100 to R111). A source line is its words with one
space between them, and no word holds a space, a colon or an end of line: so the assembler cuts the text into the words
it was written from, finds no label, and reads each word back as the value it was written from. -/

namespace Sys2Proof.Machine

/-! ## Cutting a text -/

theorem cutAt_ne_nil (sep : Char) (t : Text) : cutAt sep t ≠ [] := by
  cases t with
  | nil => exact List.cons_ne_nil _ _
  | cons c cs =>
    rw [cutAt]
    split
    · exact List.cons_ne_nil _ _
    · split <;> exact List.cons_ne_nil _ _

/-- A separator starts a new piece, any other character joins the first piece. -/
theorem cutAt_cons (sep c : Char) (cs : Text) :
    cutAt sep (c :: cs) = if c = sep then [] :: cutAt sep cs else (cutAt sep cs).modifyHead (c :: ·) := by
  rw [cutAt]
  cases h : cutAt sep cs with
  | nil => exact absurd h (cutAt_ne_nil sep cs)
  | cons w ws => rfl

theorem cutAt_append_sep {sep : Char} {w : Text} (hw : sep ∉ w) (t : Text) :
    cutAt sep (w ++ sep :: t) = w :: cutAt sep t := by
  induction w with
  | nil => simp [cutAt_cons]
  | cons c cs ih =>
    obtain ⟨hc, hcs⟩ := List.ne_and_not_mem_of_not_mem_cons hw
    rw [List.cons_append, cutAt_cons, if_neg (Ne.symm hc), ih hcs, List.modifyHead_cons]

theorem cutAt_of_not_mem {sep : Char} {w : Text} (hw : sep ∉ w) : cutAt sep w = [w] := by
  induction w with
  | nil => rfl
  | cons c cs ih =>
    obtain ⟨hc, hcs⟩ := List.ne_and_not_mem_of_not_mem_cons hw
    rw [cutAt_cons, if_neg (Ne.symm hc), ih hcs, List.modifyHead_cons]

/-! ## Words with a space between them -/

/-- A word that stays whole in a line (R100). -/
structure PlainWord (w : Text) : Prop where
  ne_nil : w ≠ []
  no_space : ' ' ∉ w
  no_colon : ':' ∉ w
  no_newline : '\n' ∉ w

/-- The words `w :: ws` with a space between them. -/
def spaced (w : Text) (ws : List Text) : Text := w ++ ws.flatMap fun v => ' ' :: v

theorem spaced_cons (w v : Text) (vs : List Text) : spaced w (v :: vs) = w ++ ' ' :: spaced v vs := by
  simp [spaced]

/-- Spaced words are cut into themselves. -/
theorem wordsOf_spaced {w : Text} {ws : List Text} (h : ∀ v ∈ w :: ws, PlainWord v) :
    wordsOf (spaced w ws) = w :: ws := by
  have hcut : cutAt ' ' (spaced w ws) = w :: ws := by
    induction ws generalizing w with
    | nil => simpa [spaced] using cutAt_of_not_mem (h w (by simp)).no_space
    | cons v vs ih =>
      obtain ⟨hw, hvs⟩ := List.forall_mem_cons.mp h
      rw [spaced_cons, cutAt_append_sep hw.no_space, ih hvs]
  rw [wordsOf, hcut, List.filter_eq_self]
  exact fun v hv => decide_eq_true (h v hv).ne_nil

/-- A space is the only character spaced words have that their words have not. -/
theorem not_mem_spaced {c : Char} (hc : c ≠ ' ') {w : Text} {ws : List Text} (h : ∀ v ∈ w :: ws, c ∉ v) :
    c ∉ spaced w ws := by
  induction ws generalizing w with
  | nil => simpa [spaced] using h
  | cons v vs ih =>
    obtain ⟨hw, hvs⟩ := List.forall_mem_cons.mp h
    rw [spaced_cons]
    simp [hw, hc, ih hvs]

/-! ## Hexadecimal tokens (R103) -/

/-- The digit that writes `d`, for `d` below 16. -/
def hexDigit (d : Nat) : Char := "0123456789ABCDEF".toList.getD d '0'

theorem hexText_succ (n v : Nat) : hexText (n + 1) v = hexText n (v / 16) ++ [hexDigit (v % 16)] := rfl

theorem hexValue_hexDigit : ∀ d < 16, hexValue (hexDigit d) = some d := by decide

theorem isHex_hexDigit : ∀ d < 16, isHex (hexDigit d) = true := by decide

theorem length_hexText (n v : Nat) : (hexText n v).length = n := by
  induction n generalizing v with
  | zero => rfl
  | succ n ih => rw [hexText_succ, List.length_append, ih, List.length_singleton]

/-- What holds of the sixteen digits holds of each character of a token. -/
theorem forall_mem_hexText {p : Char → Prop} (hp : ∀ d < 16, p (hexDigit d)) (n v : Nat) :
    ∀ c ∈ hexText n v, p c := by
  induction n generalizing v with
  | zero => exact List.forall_mem_nil _
  | succ n ih =>
    rw [hexText_succ, List.forall_mem_append]
    exact ⟨ih _, List.forall_mem_singleton.mpr (hp _ (Nat.mod_lt _ (by decide)))⟩

theorem hexNumber_concat (acc : Nat) (t : Text) (c : Char) :
    hexNumber acc (t ++ [c]) = (hexNumber acc t).bind fun v => (hexValue c).map (16 * v + ·) := by
  induction t generalizing acc with
  | nil => cases h : hexValue c <;> simp [hexNumber, h]
  | cons d ds ih => cases h : hexValue d <;> simp [hexNumber, h, ih]

/-- A token is read back as the number it was written from, as far as its digits go. -/
theorem hexNumber_hexText (n v : Nat) : hexNumber 0 (hexText n v) = some (v % 16 ^ n) := by
  induction n generalizing v with
  | zero => simp [hexText, hexNumber, Nat.mod_one]
  | succ n ih =>
    rw [hexText_succ, hexNumber_concat, ih, hexValue_hexDigit _ (Nat.mod_lt _ (by decide)), Option.bind_some,
      Option.map_some, Nat.pow_succ', Nat.mod_mul, Nat.add_comm]

theorem not_mem_hexText {c : Char} (hc : ∀ d < 16, hexDigit d ≠ c) (n v : Nat) : c ∉ hexText n v :=
  fun h => forall_mem_hexText (p := (· ≠ c)) hc n v c h rfl

theorem hexText_ne_nil (n v : Nat) : hexText (n + 1) v ≠ [] := by
  rw [hexText_succ]
  exact List.append_ne_nil_of_right_ne_nil _ (List.cons_ne_nil _ _)

theorem plainWord_hexText (n v : Nat) : PlainWord (hexText (n + 1) v) :=
  ⟨hexText_ne_nil n v, not_mem_hexText (by decide) _ _, not_mem_hexText (by decide) _ _,
    not_mem_hexText (by decide) _ _⟩

/-- A token of more than one character is no register token, and where there is no label it stands for itself (R105). -/
theorem substitute_nil_hexText (n v : Nat) : substitute [] (hexText (n + 2) v) = hexText (n + 2) v := by
  have hne : ∀ c, hexText (n + 2) v ≠ [c] := fun c h => by
    have := length_hexText (n + 2) v
    simp [h] at this
  simp [substitute, hne]

/-- Two digits a byte: the number a token was written from is the operand's (R103). -/
theorem operandBytes_hexText (line : Nat) {size v : Nat} (hv : v < 16 ^ (2 * size)) :
    operandBytes line size (hexText (2 * size) v) = .ok (if size = 1 then [BitVec.ofNat 8 v]
      else [hiByte (BitVec.ofNat 16 v), loByte (BitVec.ofNat 16 v)]) := by
  have hhex : (hexText (2 * size) v).all isHex = true :=
    List.all_eq_true.mpr (forall_mem_hexText isHex_hexDigit _ _)
  simp only [operandBytes, hhex, hexNumber_hexText, Nat.mod_eq_of_lt hv, length_hexText, if_true]

/-! ## Operands (R102, R106) -/

theorem plainWord_selToken (sel : Byte) : PlainWord (selToken sel) := by
  unfold selToken
  split_ifs
  · constructor <;> decide
  · constructor <;> decide
  · exact plainWord_hexText _ _

/-- The register tokens too stand for the two digits of the selector byte (R102). -/
theorem substitute_nil_selToken (sel : Byte) : substitute [] (selToken sel) = hexText 2 sel.toNat := by
  unfold selToken
  split_ifs with hx hy
  · subst hx; decide
  · subst hy; decide
  · exact substitute_nil_hexText _ _

theorem operandBytes_selToken (line : Nat) (sel : Byte) :
    operandBytes line OperandKind.reg.size (substitute [] (selToken sel)) = .ok [sel] := by
  rw [substitute_nil_selToken, OperandKind.size]
  simpa using operandBytes_hexText line (size := 1) sel.isLt

theorem operandBytes_wordToken (line : Nat) (w : Word) :
    operandBytes line 2 (substitute [] (hexText 4 w.toNat)) = .ok [hiByte w, loByte w] := by
  rw [substitute_nil_hexText]
  simpa using operandBytes_hexText line (size := 2) w.isLt

theorem operandsBytes_reg (line : Nat) (sel : Byte) : operandsBytes [] line [.reg] [selToken sel] = .ok [sel] := by
  rw [operandsBytes, operandBytes_selToken]
  rfl

theorem operandsBytes_word (line : Nat) (w : Word) {k : OperandKind} (hk : k.size = 2) :
    operandsBytes [] line [k] [hexText 4 w.toNat] = .ok [hiByte w, loByte w] := by
  rw [operandsBytes, hk, operandBytes_wordToken]
  rfl

theorem operandsBytes_reg_word (line : Nat) (sel : Byte) (w : Word) {k : OperandKind} (hk : k.size = 2) :
    operandsBytes [] line [.reg, k] [selToken sel, hexText 4 w.toNat] = .ok [sel, hiByte w, loByte w] := by
  rw [operandsBytes, operandBytes_selToken, operandsBytes_word line w hk]
  rfl

/-- The operand tokens of an instruction give its operand bytes, format by format (R81). -/
theorem operandsBytes_operandTokens (line : Nat) (i : Instr) :
    operandsBytes [] line i.op.format.operands (operandTokens i) = .ok i.operandBytes := by
  cases i with
  | nop | hlt | swp | add | sub | mul | div | mod | scf | ccf => rfl
  | mov sel | ldr sel | str sel => exact operandsBytes_reg line sel
  | lod sel w | sto sel w | ldi sel w => exact operandsBytes_reg_word line sel w rfl
  | jmp w | jz w | jnz w | jc w | jnc w | jge w | jl w => exact operandsBytes_word line w rfl

/-! ## Written lines (R100, R110) -/

theorem opOfWord_letters (op : Op) : opOfWord (Op.letters op) = some op := by
  cases op <;> decide

theorem plainWord_letters (op : Op) : PlainWord (Op.letters op) := by
  cases op <;> constructor <;> decide

/-- The words of an instruction's source line. -/
def sourceWords (i : Instr) : List Text := Op.letters i.op :: operandTokens i

theorem sourceLine_eq (i : Instr) : sourceLine i = spaced (Op.letters i.op) (operandTokens i) := rfl

theorem plainWord_sourceWords (i : Instr) : ∀ w ∈ sourceWords i, PlainWord w := by
  refine List.forall_mem_cons.mpr ⟨plainWord_letters _, ?_⟩
  cases i <;> simp [operandTokens, plainWord_selToken, plainWord_hexText]

/-- A space is the only separator a source line holds. -/
theorem not_mem_sourceLine {c : Char} (hspace : c ≠ ' ') (hplain : ∀ {w}, PlainWord w → c ∉ w) (i : Instr) :
    c ∉ sourceLine i := by
  rw [sourceLine_eq]
  exact not_mem_spaced hspace fun w hw => hplain (plainWord_sourceWords i w hw)

theorem wordsOf_sourceLine (i : Instr) : wordsOf (sourceLine i) = sourceWords i := by
  rw [sourceLine_eq]
  exact wordsOf_spaced (plainWord_sourceWords i)

/-- The line the assembler makes of an instruction's source line: it has no label. -/
def writtenLine (n : Nat) (i : Instr) : AsmLine := ⟨n, none, sourceWords i⟩

theorem parseLine_sourceLine (n : Nat) (i : Instr) : parseLine n (sourceLine i) = .ok (writtenLine n i) := by
  have hcut : cutAt ':' (sourceLine i) = [sourceLine i] :=
    cutAt_of_not_mem (not_mem_sourceLine (by decide) PlainWord.no_colon i)
  simp only [parseLine, hcut, wordsOf_sourceLine, writtenLine]

theorem lineBytes_writtenLine (n : Nat) (i : Instr) : lineBytes [] (writtenLine n i) = .ok (encode i) := by
  simp only [lineBytes, writtenLine, sourceWords, opOfWord_letters, operandsBytes_operandTokens]
  rfl

/-! ## Written programs (R104, R106, R107) -/

/-- The lines of a written program, numbered from `n`; the last one, after the last end of line, is empty. -/
def writtenLines : Nat → List Instr → List AsmLine
  | n, [] => [⟨n, none, []⟩]
  | n, i :: is => writtenLine n i :: writtenLines (n + 1) is

theorem parseLines_sourceText (n : Nat) (program : List Instr) :
    parseLines n (cutAt '\n' (sourceText program)) = .ok (writtenLines n program) := by
  induction program generalizing n with
  | nil => rfl
  | cons i is ih =>
    have hline : '\n' ∉ sourceLine i := not_mem_sourceLine (by decide) PlainWord.no_newline i
    rw [sourceText, cutAt_append_sep hline, parseLines, parseLine_sourceLine, ih]
    rfl

/-- A written program has no label (R104). -/
theorem labelTable_writtenLines (addr n : Nat) (program : List Instr) :
    labelTable addr (writtenLines n program) = .ok [] := by
  induction program generalizing addr n with
  | nil => rfl
  | cons i is ih =>
    simp only [writtenLines, labelTable, writtenLine, sourceWords, List.head?_cons, Option.map_some,
      opOfWord_letters, ih]
    rfl

theorem checkLabels_writtenLines (hexes : List Text) (n : Nat) (program : List Instr) :
    checkLabels [] hexes (writtenLines n program) = .ok () := by
  induction program generalizing n with
  | nil => rfl
  | cons i is ih => exact ih (n + 1)

theorem linesBytes_writtenLines (n : Nat) (program : List Instr) :
    linesBytes [] (writtenLines n program) = .ok (program.flatMap encode) := by
  induction program generalizing n with
  | nil => rfl
  | cons i is ih =>
    rw [writtenLines, linesBytes, lineBytes_writtenLine, ih]
    rfl

/-- Settles O54: the text is cut into the lines it was written from, which hold no label; each gives its encoding. -/
theorem assemblyOfWrittenProgramIsItsEncoding : Obligations.AssemblyOfWrittenProgramIsItsEncoding := by
  intro program
  rw [assemble, parseLines_sourceText]
  simp only [bind, Except.bind, labelTable_writtenLines, checkLabels_writtenLines, linesBytes_writtenLines]

/-- Settles O53: by running the assembler on the four lines of R111. -/
theorem workedExampleAssembles : Obligations.WorkedExampleAssembles := by
  rfl

end Sys2Proof.Machine
end

section
/-! PROOFS. The step and the control instructions (spec/40_step_and_control.md R120 to R131, spec/60_exceptions.md R246 and
R247). A step request of a ready state does what the fetch finds at P, one lemma for each thing it can find: an
instruction, an undefined opcode, an operand byte above 0xFFFF. What no single fetch decides is read off `commit_cases`
and `exec_answers`. -/

namespace Sys2Proof.Machine

/-! ## What the fetch decides (R123, R125, R126) -/

theorem commit_of_decode {s : State} {i : Instr} {rest : List Byte} (hready : s.Ready)
    (h : decode (fetchBytes s.mem s.pointer) = .ok (i, rest)) : commit s = exec i s := by
  obtain ⟨hat, hfault⟩ := hready
  rw [commit_eligible hat hfault, runStep_exec]
  rw [fetch, h]
  rfl

theorem commit_of_undefinedOpcode {s : State} (hready : s.Ready)
    (h : undefinedOpcode (readByte s.mem s.pointer.toNat) = true) :
    commit s = .next { s with outcome := some .unknownOpcode } := by
  obtain ⟨hat, hfault⟩ := hready
  rw [commit_eligible hat hfault, runStep, fetch_unknown (lookup_eq_none.mpr h)]

theorem commit_of_operandAboveTop {s : State} {op : Op} (hready : s.Ready)
    (h : lookup (readByte s.mem s.pointer.toNat) = some op) (hl : 0xFFFF < s.pointer.toNat + op.length - 1) :
    commit s = .next (s.faulted .addressOutOfRange) := by
  obtain ⟨hat, hfault⟩ := hready
  rw [commit_eligible hat hfault, runStep, fetch_truncated h hl, raise_eq]

/-- Settles O33: the answer differs from the state in its outcome only, so the next commit fetches the same byte. -/
theorem unknownOpcodeChangesNothing : Obligations.UnknownOpcodeChangesNothing :=
  fun s hready h => ⟨_, commit_of_undefinedOpcode hready h, rfl,
    commit_of_undefinedOpcode (s := { s with outcome := some .unknownOpcode }) hready h⟩

/-- The placements at which an operand byte lies above 0xFFFF (R125). -/
theorem operandAboveTop_iff (op : Op) (p : Word) : 0xFFFF < p.toNat + op.length - 1 ↔
    (op.length = 2 ∧ p = 0xFFFF) ∨ (op.length = 3 ∧ 0xFFFE ≤ p.toNat) ∨ (op.length = 4 ∧ 0xFFFD ≤ p.toNat) := by
  have hlen := length_bounds op
  bv_omega

/-- Settles O32: the fetch is truncated at those placements, and arithmetic lists them. -/
theorem operandBytesAboveTheTopFault : Obligations.OperandBytesAboveTheTopFault :=
  ⟨fun _ _ => commit_of_operandAboveTop, operandAboveTop_iff⟩

/-! ## NOP and HLT (R130, R131) -/

/-- An effect whose next address fits ends the step there. -/
theorem Effect.endsStepAt {i : Instr} {s after : State} {n : Nat} (he : Effect i s after n) (hn : n ≤ 0xFFFF) :
    EndsStepAt s { after with targetPointer := BitVec.ofNat 16 n, outcome := some .stepped } n :=
  ⟨toNat_nextAddress hn, rfl, he.pointer, he.tags, he.fault, he.schedule, he.scans⟩

/-- Settles O6: NOP is the end of a step that has written nothing. -/
theorem nopOnlyAdvances : Obligations.NopOnlyAdvances := by
  refine fun s => ⟨rfl, fun hp => ?_, fun hp => ?_⟩
  · have he : Effect .nop s s (s.pointer.toNat + 1) := .refl (.inl rfl)
    exact ⟨_, writeback_fits hp, he.endsStepAt hp, fun _ => rfl, rfl, rfl, rfl⟩
  · have hover : 0xFFFF < s.following 1 := by rw [State.following, hp]; decide
    exact writeback_over hover

theorem commit_of_hlt {s : State} (hready : s.Ready) (h : readByte s.mem s.pointer.toNat = 0x01) :
    commit s = .next { s with outcome := some .halted } :=
  commitExecutesTheInstructionAtP s .hlt hready (holds_of_oneByte rfl h)

/-- Settles O7: the answer differs from the state in its outcome only, so the next commit meets the same HLT. -/
theorem hltHaltsAndStays : Obligations.HltHaltsAndStays :=
  fun s => ⟨rfl, rfl, fun hready h => ⟨_, commit_of_hlt hready h, rfl,
    commit_of_hlt (s := { s with outcome := some .halted }) hready h⟩⟩

/-! ## Step requests (R122, R129, R246) -/

/-- NoStep is the outcome of no instruction (R11, R122). -/
theorem exec_outcome_ne_noStep {i : Instr} {s t : State} (h : exec i s = .next t) : t.outcome ≠ some .noStep := by
  rcases exec_answers h with ⟨e, rfl⟩ | ⟨_, rfl⟩ | ⟨after, n, _, _, rfl⟩ <;> simp

theorem commit_outcome_ne_noStep {s t : State} (hready : s.Ready) (h : commit s = .next t) :
    t.outcome ≠ some .noStep := by
  rcases commit_cases h with ⟨hnot, _⟩ | ⟨_, ⟨i, hi⟩ | rfl | rfl⟩
  · exact absurd hready hnot
  · exact exec_outcome_ne_noStep hi
  · simp
  · simp

/-- Settles O31: a state that is not ready answers NoStep by `commit_noStep`, and a ready one another outcome. -/
theorem commitStepsExactlyWhenReady : Obligations.CommitStepsExactlyWhenReady := by
  intro s
  by_cases hready : s.Ready
  · obtain ⟨t, ht⟩ := commit_next s
    exact ⟨t, ht, iff_of_false (commit_outcome_ne_noStep hready ht) (not_not_intro hready), (absurd hready ·)⟩
  · exact ⟨_, commit_noStep hready, iff_of_true rfl hready, fun _ => rfl⟩

/-- A step request that does not complete an instruction either changes the outcome alone, to one that is no fault, or
takes an exception. -/
theorem commit_of_not_stepped {s t : State} (h : commit s = .next t) (ho : t.outcome ≠ some .stepped) :
    (∃ o, (∀ e, o ≠ .fault e) ∧ t = { s with outcome := some o }) ∨ ∃ e, t = s.faulted e := by
  rcases commit_cases h with ⟨_, rfl⟩ | ⟨_, ⟨i, hi⟩ | rfl | rfl⟩
  · exact .inl ⟨.noStep, by simp, rfl⟩
  · rcases exec_answers hi with ⟨e, rfl⟩ | ⟨_, rfl⟩ | ⟨after, n, _, _, rfl⟩
    · exact .inr ⟨e, rfl⟩
    · exact .inl ⟨.halted, by simp, rfl⟩
    · exact absurd rfl ho
  · exact .inl ⟨.unknownOpcode, by simp, rfl⟩
  · exact .inr ⟨_, rfl⟩

/-- Settles O34: neither of the two answers left touches the architectural state, and only the exception sets the latch. -/
theorem stepsAreAllOrNothing : Obligations.StepsAreAllOrNothing := by
  intro s t h ho
  rcases commit_of_not_stepped h ho with ⟨o, hno, rfl⟩ | ⟨e, rfl⟩
  · refine ⟨⟨rfl, rfl, rfl, rfl, rfl, rfl⟩, fun e he => ?_, fun _ => rfl⟩
    exact absurd (Option.some.inj he) (hno e)
  · refine ⟨⟨rfl, rfl, rfl, rfl, rfl, rfl⟩, fun e' he => ?_, fun hno => absurd rfl (hno e)⟩
    cases he
    rfl

/-! ## The tick around the step request (R247, R284) -/

theorem not_ready_of_fault {s : State} {e : Exc} (h : s.fault = some e) : ¬s.Ready := by
  simp [h]

/-- Settles O39: the requests and the scan leave the latch at `e`, so a step request is NoStep. -/
theorem faultedMachineStaysHalted : Obligations.FaultedMachineStaysHalted := by
  intro s e inp hs hreset
  have hfault : (scan (applyRequests s inp.requests)).fault = some e := by
    rw [scan_fault, applyRequests_fault hreset, hs]
  cases hc : inp.commit with
  | true =>
    rw [tick_commit hc, commit_noStep (not_ready_of_fault hfault)]
    exact ⟨_, rfl, hfault, ⟨rfl, rfl, rfl, rfl, rfl, rfl⟩, rfl, fun _ => rfl, nofun⟩
  | false =>
    rw [tick_idle hc]
    exact ⟨_, rfl, hfault, ⟨rfl, rfl, rfl, rfl, rfl, rfl⟩, rfl, nofun, fun _ => rfl⟩

/-- A step with an input scheduled is the tick of that input, the input removed (log entry 1). -/
theorem step_scheduled {s : State} {inp : TickInput} {later : List TickInput} (h : s.schedule = inp :: later) :
    step s = tick { s with schedule := later } inp := by
  rw [step_eq_tick, nextInput, h, List.tail_cons, List.headD_cons]

/-- Settles O29: a scan leaves memory, pointers and latch alone, so the step request after it decodes the same bytes at P. -/
theorem stepRunsTheDecodedInstruction : Obligations.StepRunsTheDecodedInstruction := by
  refine ⟨fun s inp later i rest hs hc hready hd => ?_, fun s i rest hs hfault hd => ?_⟩
  · rw [step_scheduled hs, tick_commit hc]
    exact commit_of_decode hready hd
  · rw [step_unscheduled hs]
    exact commit_of_decode ⟨rfl, hfault⟩ hd

end Sys2Proof.Machine
end

section
/-! PROOFS. Data movement (spec/41_data_movement.md R140 to R147). Three ends of a step do all the work, each with one
lemma for where it completes and one for where it faults: a write of the selected register (MOV, LDI; its fault is
`writeback_over`), a load (LOD, LDR) and a store (STO, STR). They are read off
`setReg_selected`, `readWord_eq` and `writeWord_spec`. -/

namespace Sys2Proof.Machine

/-! ## The encoding with a selector and a word (R81, R83) -/

theorem hiByte_eq_ofNat (w : Word) : hiByte w = BitVec.ofNat 8 (w.toNat / 256) := by
  apply BitVec.eq_of_toNat_eq
  have hw := w.isLt
  rw [toNat_hiByte, BitVec.toNat_ofNat]
  omega

theorem loByte_eq_ofNat (w : Word) : loByte w = BitVec.ofNat 8 w.toNat := by
  apply BitVec.eq_of_toNat_eq
  rw [toNat_loByte, BitVec.toNat_ofNat]

/-- The four bytes of formats RA and RI, the word by its number. -/
theorem selWordBytes_eq_ofNat (opcode sel : Byte) (w : Word) :
    [opcode, sel, hiByte w, loByte w] = [opcode, sel, BitVec.ofNat 8 (w.toNat / 256), BitVec.ofNat 8 w.toNat] := by
  rw [hiByte_eq_ofNat, loByte_eq_ofNat]

/-! ## A write of the selected register: MOV and LDI (R141, R147) -/

section SelectorInstructions

variable {i : Instr} {sel : Byte} {a : Word} {s : State}

/-- An instruction that writes `v` to the selected register, its next address in range. -/
theorem writeback_setReg_completes (v : Word) (hp : s.pointer.toNat + i.op.length ≤ 0xFFFF) :
    ∃ t, writeback s (s.setReg (selReg sel) v) (s.following i.op.length) = .next t ∧
      SelectedBecomes sel v.toNat s t ∧ t.carry = s.carry ∧ SameBytes s t ∧
      EndsStepAt s t (s.pointer.toNat + i.op.length) := by
  have he : Effect i s (s.setReg (selReg sel) v) (s.following i.op.length) := .ofSetReg
  refine ⟨_, writeback_fits hp, setReg_selected s sel v, setReg_carry .., fun _ => ?_, he.endsStepAt hp⟩
  rw [setReg_mem]

/-! ## Loads: LOD and LDR (R142, R144) -/

/-- A load whose word and whose next address are in range. -/
theorem loadFrom_completes (ha : a ≠ 0xFFFF) (hp : s.pointer.toNat + i.op.length ≤ 0xFFFF) :
    ∃ t, loadFrom sel a i.op.length s = .next t ∧ SelectedBecomes sel (wordAt s a.toNat) s t ∧
      t.carry = s.carry ∧ SameBytes s t ∧ EndsStepAt s t (s.pointer.toNat + i.op.length) := by
  rw [loadFrom, readWord_eq ha, wordAt, ← toNat_bytesToWord]
  exact writeback_setReg_completes _ hp

/-- Only at 0xFFFF does a load of a word not answer (R10, R59). -/
theorem ne_top_of_readWord {m : Memory} {v : Word} (h : readWord m a = some v) : a ≠ 0xFFFF := by
  rintro rfl
  rw [readWord_top] at h
  cases h

/-- A load faults where its word or its next address is out of range (R59, R128). -/
theorem loadFrom_faults {len : Nat} (h : a = 0xFFFF ∨ 0xFFFF < s.pointer.toNat + len) :
    loadFrom sel a len s = .next (s.faulted .addressOutOfRange) := by
  obtain ⟨t, ht⟩ := loadFrom_next sel a len s
  rcases loadFrom_cases ht with ⟨v, hv, hwriteback⟩ | ⟨_, rfl⟩
  · rw [ht, ← hwriteback]
    exact writeback_over (h.resolve_left (ne_top_of_readWord hv))
  · exact ht

/-! ## Stores: STO and STR (R143, R145) -/

/-- A store whose word and whose next address are in range. -/
theorem storeTo_completes {len : Nat} (hwf : Memory.wf s.mem = true) (ha : a ≠ 0xFFFF)
    (hp : s.pointer.toNat + len ≤ 0xFFFF) :
    ∃ t, storeTo sel a len s = .next t ∧ StoresWord s t a.toNat (selectedValue sel s) ∧ SameRegs s t ∧
      EndsStepAt s t (s.pointer.toNat + len) := by
  have hm := writeWord_eq (m := s.mem) (v := s.getReg (selReg sel)) ha
  obtain ⟨_, hhi, hlo, hother⟩ := writeWord_spec hm hwf
  rw [storeTo, hm]
  refine ⟨_, writeback_fits hp, ⟨?_, ?_, hother⟩, ⟨rfl, rfl, rfl⟩, toNat_nextAddress hp, rfl, rfl, rfl, rfl, rfl, rfl⟩
  · rw [hhi, toNat_hiByte, getReg_selReg]
  · rw [hlo, toNat_loByte, getReg_selReg]

/-- A store faults where its word or its next address is out of range, and then writes no byte (R59, R128). -/
theorem storeTo_faults {len : Nat} (h : a = 0xFFFF ∨ 0xFFFF < s.pointer.toNat + len) :
    storeTo sel a len s = .next (s.faulted .addressOutOfRange) := by
  obtain ⟨t, ht⟩ := storeTo_next sel a len s
  rcases storeTo_cases ht with ⟨m, hm, hwriteback⟩ | ⟨_, rfl⟩
  · rw [ht, ← hwriteback]
    exact writeback_over (h.resolve_left (ne_top_of_writeWord hm))
  · exact ht

end SelectorInstructions

/-! ## The six instructions with a selector (R141 to R145, R147) -/

/-- Settles O8: MOV writes the other register's value to the selected one, which leaves the other as it is. -/
theorem movCopiesTheOtherRegister : Obligations.MovCopiesTheOtherRegister := by
  refine fun sel s => ⟨rfl, fun hp => ?_, fun hover => writeback_over hover⟩
  obtain ⟨t, ht, ⟨hselX, hselY⟩, hcarry, hmem, hend⟩ :=
    writeback_setReg_completes (i := .mov sel) (sel := sel) (s.getReg (selReg sel).other) hp
  refine ⟨t, ht, fun hsel => ?_, fun hsel => ?_, hcarry, hmem, hend⟩
  · obtain ⟨hx, hy⟩ := hselX hsel
    rw [hsel, selReg_zero] at hx
    exact ⟨BitVec.eq_of_toNat_eq hx, hy⟩
  · obtain ⟨hy, hx⟩ := hselY hsel
    rw [selReg_ne hsel] at hy
    exact ⟨BitVec.eq_of_toNat_eq hy, hx⟩

/-- Settles O14: LDI writes its literal to the selected register. -/
theorem ldiLoadsItsLiteral : Obligations.LdiLoadsItsLiteral :=
  fun sel imm _ => ⟨selWordBytes_eq_ofNat 0x16 sel imm, writeback_setReg_completes (i := .ldi sel imm) imm,
    fun hover => writeback_over hover⟩

/-- Settles O9: LOD is a load from its operand. -/
theorem lodLoadsTheWordAtItsAddress : Obligations.LodLoadsTheWordAtItsAddress :=
  fun sel addr _ => ⟨selWordBytes_eq_ofNat 0x11 sel addr, loadFrom_completes (i := .lod sel addr), loadFrom_faults⟩

/-- Settles O11: LDR is a load from the X of the state before the step, whichever register it then writes. -/
theorem ldrLoadsTheWordAtX : Obligations.LdrLoadsTheWordAtX :=
  fun sel _ => ⟨rfl, loadFrom_completes (i := .ldr sel), loadFrom_faults⟩

/-- Settles O10: STO is a store to its operand. -/
theorem stoStoresTheWordAtItsAddress : Obligations.StoStoresTheWordAtItsAddress :=
  fun sel addr _ => ⟨selWordBytes_eq_ofNat 0x12 sel addr, storeTo_completes, storeTo_faults⟩

/-- Settles O12: STR is a store to X, of X itself when the selector names it. -/
theorem strStoresTheWordAtX : Obligations.StrStoresTheWordAtX :=
  fun _ _ => ⟨rfl, storeTo_completes, storeTo_faults⟩

/-! ## SWP (R146) -/

/-- SWP with its next address in range. -/
theorem swp_completes {s : State} (hp : s.pointer.toNat + 1 ≤ 0xFFFF) :
    ∃ t, exec .swp s = .next t ∧ t.x = s.y ∧ t.y = s.x ∧ t.carry = s.carry ∧ SameBytes s t ∧
      EndsStepAt s t (s.pointer.toNat + 1) :=
  ⟨_, writeback_fits hp, rfl, rfl, rfl, fun _ => rfl, toNat_nextAddress hp, rfl, rfl, rfl, rfl, rfl, rfl⟩

/-- Settles O13: the second SWP, at the next address of the first, exchanges the registers back. -/
theorem swpExchangesTheRegisters : Obligations.SwpExchangesTheRegisters := by
  refine fun s => ⟨rfl, swp_completes, fun hp => ?_, fun hp => ?_⟩
  · obtain ⟨t, ht, htx, hty, htcarry, htmem, htp, _⟩ := swp_completes (s := s) (by omega)
    obtain ⟨u, hu, hux, huy, hucarry, humem, _⟩ :=
      swp_completes (s := t.caughtUp) (by rw [caughtUp_pointer, htp]; exact hp)
    exact ⟨t, u, ht, hu, ⟨hux.trans hty, huy.trans htx, hucarry.trans htcarry⟩,
      fun a => (humem a).trans (htmem a)⟩
  · have hover : 0xFFFF < s.following 1 := by rw [State.following, hp]; decide
    exact writeback_over hover

end Sys2Proof.Machine
end

section
/-! PROOFS. Arithmetic (spec/42_arithmetic.md R160 to R167). The words computed come first, as numbers; then the one end of
a step all five instructions share, a write of X and C; ADD and SUB give it a new C, MUL, DIV and MOD the old one. R166 and
R167 are derived, as the spec derives them, from the statements about the single instructions. -/

namespace Sys2Proof.Machine

/-! ## The words computed, as numbers (R161 to R165) -/

theorem toNat_sumWord (x y : Word) : (sumWord x y).toNat = (x.toNat + y.toNat) % 65536 :=
  BitVec.toNat_ofNat ..

theorem toNat_diffWord (x y : Word) : ((diffWord x y).toNat : Int) = ((x.toNat : Int) - y.toNat) % 65536 := by
  have hy := y.isLt
  rw [diffWord, BitVec.toNat_ofNat]
  omega

theorem toNat_productWord (x y : Word) : (productWord x y).toNat = (x.toNat * y.toNat) % 65536 :=
  BitVec.toNat_ofNat ..

/-- A quotient is at most its dividend, so narrowing it loses nothing. -/
theorem toNat_quotientWord (x y : Word) : (quotientWord x y).toNat = x.toNat / y.toNat :=
  (BitVec.toNat_ofNat ..).trans (Nat.mod_eq_of_lt ((Nat.div_le_self ..).trans_lt x.isLt))

/-- A remainder is at most its dividend, so narrowing it loses nothing. -/
theorem toNat_remainderWord (x y : Word) : (remainderWord x y).toNat = x.toNat % y.toNat :=
  (BitVec.toNat_ofNat ..).trans (Nat.mod_eq_of_lt ((Nat.mod_le ..).trans_lt x.isLt))

/-! ## The end of a step that writes X and C -/

section OneByteInstruction

variable {s : State}

/-- The next address of an instruction of one byte does not fit at 0xFFFF (R128). -/
theorem following_one_over (hp : s.pointer = 0xFFFF) : 0xFFFF < s.following 1 := by
  rw [State.following, hp]
  decide

theorem writeback_xCarry_completes (v : Word) (c : Bool) (hp : s.pointer.toNat + 1 ≤ 0xFFFF) :
    ∃ t, writeback s { s with x := v, carry := c } (s.following 1) = .next t ∧ t.x = v ∧ t.carry = c ∧
      t.y = s.y ∧ SameBytes s t ∧ EndsStepAt s t (s.pointer.toNat + 1) :=
  ⟨_, writeback_fits hp, rfl, rfl, rfl, fun _ => rfl, toNat_nextAddress hp, rfl, rfl, rfl, rfl, rfl, rfl⟩

/-- The same end where C keeps its value (decision D4), X given by its number. -/
theorem writeback_x_completes {v : Word} {n : Nat} (hv : v.toNat = n) (hp : s.pointer.toNat + 1 ≤ 0xFFFF) :
    ∃ t, writeback s { s with x := v } (s.following 1) = .next t ∧ t.x.toNat = n ∧ t.y = s.y ∧
      t.carry = s.carry ∧ SameBytes s t ∧ EndsStepAt s t (s.pointer.toNat + 1) := by
  obtain ⟨t, ht, hx, hcarry, hy, hmem, hend⟩ := writeback_xCarry_completes v s.carry hp
  exact ⟨t, ht, by rw [hx, hv], hy, hcarry, hmem, hend⟩

/-! ## DIV and MOD by zero and not by zero (R164, R165, R245) -/

theorem exec_div_of_zero (hy : s.y = 0) : exec .div s = .next (s.faulted .divisionByZero) :=
  if_pos hy

theorem exec_div_of_ne_zero (hy : s.y ≠ 0) :
    exec .div s = writeback s { s with x := quotientWord s.x s.y } (s.following 1) :=
  if_neg hy

theorem exec_mod_of_zero (hy : s.y = 0) : exec .mod s = .next (s.faulted .moduloByZero) :=
  if_pos hy

theorem exec_mod_of_ne_zero (hy : s.y ≠ 0) :
    exec .mod s = writeback s { s with x := remainderWord s.x s.y } (s.following 1) :=
  if_neg hy

end OneByteInstruction

/-! ## The five instructions (R161 to R165) -/

/-- Settles O15: ADD writes the sum and its carry out. -/
theorem addAddsAndWritesTheCarry : Obligations.AddAddsAndWritesTheCarry := by
  refine fun s => ⟨rfl, fun hp => ?_, fun hp => writeback_over (following_one_over hp)⟩
  obtain ⟨t, ht, hx, hcarry, hrest⟩ :=
    writeback_xCarry_completes (sumWord s.x s.y) (sumCarry s.x s.y) hp
  refine ⟨t, ht, ?_, ?_, hrest⟩
  · rw [hx, toNat_sumWord]
  · rw [hcarry, sumCarry, decide_eq_true_iff]

/-- Settles O16: SUB writes the difference and its borrow. -/
theorem subSubtractsAndWritesTheBorrow : Obligations.SubSubtractsAndWritesTheBorrow := by
  refine fun s => ⟨rfl, fun hp => ?_, fun hp => writeback_over (following_one_over hp)⟩
  obtain ⟨t, ht, hx, hcarry, hrest⟩ :=
    writeback_xCarry_completes (diffWord s.x s.y) (diffCarry s.x s.y) hp
  refine ⟨t, ht, ?_, ?_, hrest⟩
  · rw [hx, toNat_diffWord]
  · rw [hcarry, diffCarry, decide_eq_true_iff]

/-- Settles O17: MUL writes X only, the low word of the product. -/
theorem mulKeepsTheLowWordAndTheCarry : Obligations.MulKeepsTheLowWordAndTheCarry :=
  fun s => ⟨rfl, writeback_x_completes (toNat_productWord s.x s.y),
    fun hp => writeback_over (following_one_over hp)⟩

/-- Settles O18: Y is tested before the next address is, so the trap comes first wherever DIV stands. -/
theorem divDividesOrTraps : Obligations.DivDividesOrTraps := by
  refine fun s => ⟨rfl, exec_div_of_zero, fun hy hp => ?_, fun hy hp => ?_⟩ <;> rw [exec_div_of_ne_zero hy]
  · exact writeback_x_completes (toNat_quotientWord s.x s.y) hp
  · exact writeback_over (following_one_over hp)

/-- Settles O19: Y is tested before the next address is, so the trap comes first wherever MOD stands. -/
theorem modTakesTheRemainderOrTraps : Obligations.ModTakesTheRemainderOrTraps := by
  refine fun s => ⟨rfl, exec_mod_of_zero, fun hy hp => ?_, fun hy hp => ?_⟩ <;> rw [exec_mod_of_ne_zero hy]
  · exact writeback_x_completes (toNat_remainderWord s.x s.y) hp
  · exact writeback_over (following_one_over hp)

/-! ## The derived laws (R166, R167) -/

/-- Settles O20: the sum lies below Y exactly when it was reduced by 65536, so the SUB borrows exactly when the ADD carried,
and the borrow puts back what the reduction took. -/
theorem addThenSubRestoresX : Obligations.AddThenSubRestoresX := by
  intro s hp
  obtain ⟨_, hadd, _⟩ := addAddsAndWritesTheCarry s
  obtain ⟨t, ht, htx, htcarry, hty, _, htp, _⟩ := hadd (by omega)
  obtain ⟨_, hsub, _⟩ := subSubtractsAndWritesTheBorrow t.caughtUp
  obtain ⟨u, hu, hux, hucarry, huy, _⟩ := hsub (by rw [caughtUp_pointer, htp]; exact hp)
  rw [caughtUp_x, caughtUp_y, hty] at hux hucarry
  have hx := s.x.isLt
  have hy := s.y.isLt
  have hborrow : t.x.toNat < s.y.toNat ↔ s.x.toNat + s.y.toNat > 0xFFFF := by omega
  have hboth : u.carry = true ↔ s.x.toNat + s.y.toNat > 0xFFFF := hucarry.trans hborrow
  refine ⟨t, u, ht, hu, BitVec.eq_of_toNat_eq ?_, huy.trans hty, ?_, hboth⟩
  · omega
  · exact Bool.eq_iff_iff.mpr (hboth.trans htcarry.symm)

/-- Settles O21: the two answers hold `X / Y` and `X % Y`, and Y is positive. -/
theorem quotientAndRemainderFit : Obligations.QuotientAndRemainderFit := by
  intro s hy hp
  obtain ⟨_, _, hdiv, _⟩ := divDividesOrTraps s
  obtain ⟨q, hq, hqx, _⟩ := hdiv hy hp
  obtain ⟨_, _, hmod, _⟩ := modTakesTheRemainderOrTraps s
  obtain ⟨r, hr, hrx, _⟩ := hmod hy hp
  have hpos : 0 < s.y.toNat := BitVec.toNat_pos_of_ne_zero hy
  refine ⟨q, r, hq, hr, ?_, ?_, ?_⟩
  · rw [hqx, hrx, Nat.div_add_mod']
  · rw [hrx]
    exact Nat.mod_lt _ hpos
  · rw [hqx]
    exact Nat.div_le_self ..

end Sys2Proof.Machine
end

section
/-! PROOFS. The jumps (spec/43_jumps.md R180 to R189). A jump is an end of a step that has written nothing, so one lemma
says what it does for whatever condition it tests; each conditional jump then adds only which condition that is. What
the fetch does with a jump near the top is the operand range of R125. Last comes what every opcode does at 0xFFFF
(R189). -/

namespace Sys2Proof.Machine

/-! ## The encoding with a word alone (R81) -/

/-- The three bytes of format A, the word by its number. -/
theorem wordBytes_eq_ofNat (opcode : Byte) (w : Word) :
    [opcode, hiByte w, loByte w] = [opcode, BitVec.ofNat 8 (w.toNat / 256), BitVec.ofNat 8 w.toNat] := by
  rw [hiByte_eq_ofNat, loByte_eq_ofNat]

/-! ## Every jump (R125, R180) -/

section Jumps

variable {i : Instr} {op : Op} {addr : Word} {s : State}

/-- An end of a step that has written nothing, its next address in range. -/
theorem writeback_unchanged_completes {n : Nat} (hn : n ≤ 0xFFFF) :
    ∃ t, writeback s s n = .next t ∧ EndsStepAt s t n ∧ SameBytes s t ∧ SameRegs s t :=
  ⟨_, writeback_fits hn, ⟨toNat_nextAddress hn, rfl, rfl, rfl, rfl, rfl, rfl⟩, fun _ => rfl, rfl, rfl, rfl⟩

/-- The operand of a jump is a word, so as a next address it always fits. -/
theorem jumpIf_taken : ∃ t, jumpIf true addr s = .next t ∧ EndsStepAt s t addr.toNat ∧ SameBytes s t ∧ SameRegs s t :=
  writeback_unchanged_completes (Nat.le_of_lt_succ addr.isLt)

/-- An instruction that is the jump on the Boolean `c` jumps on the condition `c` stands for. -/
theorem jumpsWhen_of_jumpIf {c : Bool} {cond : Prop} (hi : exec i s = jumpIf c addr s) (hc : c = true ↔ cond) :
    JumpsWhen i addr cond s := by
  rw [JumpsWhen, hi, ← hc]
  cases c with
  | true => exact ⟨fun _ => jumpIf_taken, fun h => absurd rfl h, fun h => absurd rfl h⟩
  | false => exact ⟨nofun, fun _ => writeback_unchanged_completes, fun _ => writeback_over⟩

/-- What the fetch does with an instruction of three bytes at 0xFFFE or 0xFFFF. -/
theorem needsItsOperand_of_length (hlen : op.length = 3) : NeedsItsOperand op s := by
  intro hready hop hp
  exact commit_of_operandAboveTop hready (lookup_eq_some.mpr hop.symm) (by omega)

end Jumps

/-! ## The seven jumps (R181 to R187) -/

/-- A step at a JMP to its own address puts TP where it already is. -/
theorem commit_of_selfJmp {s : State} (hready : s.Ready) (hs : Holds s s.pointer (.jmp s.pointer)) :
    commit s = .next { s with outcome := some .stepped } := by
  have hfits : s.pointer.toNat ≤ 0xFFFF := Nat.le_of_lt_succ s.pointer.isLt
  calc commit s = exec (.jmp s.pointer) s := commitExecutesTheInstructionAtP s _ hready hs
    _ = .next { s with targetPointer := BitVec.ofNat 16 s.pointer.toNat, outcome := some .stepped } :=
      writeback_fits hfits
    _ = .next { s with outcome := some .stepped } := by rw [BitVec.ofNat_toNat, BitVec.setWidth_eq, hready.1]

/-- Settles O22: JMP is the jump always taken; at rest on itself it answers a state that differs in its outcome only, so the
next commit meets the same JMP. -/
theorem jmpGoesToItsOperand : Obligations.JmpGoesToItsOperand := by
  intro addr s
  obtain ⟨t, ht, hend, hmem, hregs⟩ := jumpIf_taken (addr := addr) (s := s)
  have ⟨htp, _, hpointer, _⟩ := hend
  refine ⟨wordBytes_eq_ofNat 0x30 addr, t, ht, hend, hmem, hregs, ?_, needsItsOperand_of_length rfl, ?_⟩
  · rintro rfl
    rw [hpointer]
    exact BitVec.eq_of_toNat_eq htp
  · rintro hready rfl hs
    exact ⟨_, commit_of_selfJmp hready hs, rfl,
      commit_of_selfJmp (s := { s with outcome := some .stepped }) hready hs⟩

/-- Settles O23: JZ and JNZ are the jumps on `X = 0` and on its negation. -/
theorem jzAndJnzTestX : Obligations.JzAndJnzTestX := by
  intro addr s
  have hz : s.x = 0 ↔ s.x.toNat = 0 := BitVec.toNat_eq
  exact ⟨wordBytes_eq_ofNat 0x31 addr, wordBytes_eq_ofNat 0x32 addr,
    jumpsWhen_of_jumpIf rfl (beq_iff_eq.trans hz), jumpsWhen_of_jumpIf rfl (bne_iff_ne.trans hz.not),
    needsItsOperand_of_length rfl, needsItsOperand_of_length rfl⟩

/-- Settles O24: JC and JNC are the jumps on C and on its negation. -/
theorem jcAndJncTestTheCarry : Obligations.JcAndJncTestTheCarry :=
  fun addr _ => ⟨wordBytes_eq_ofNat 0x33 addr, wordBytes_eq_ofNat 0x34 addr,
    jumpsWhen_of_jumpIf rfl Iff.rfl, jumpsWhen_of_jumpIf rfl (Bool.not_eq_true' _).to_iff,
    needsItsOperand_of_length rfl, needsItsOperand_of_length rfl⟩

theorem greaterEqual_iff {x y : Word} : greaterEqual x y = true ↔ x.toNat ≥ y.toNat :=
  decide_eq_true_iff

/-- Settles O25: JGE and JL are the jumps on the comparison of the two numbers and on its negation. -/
theorem jgeAndJlCompareUnsigned : Obligations.JgeAndJlCompareUnsigned := by
  intro addr s
  have hl : (!greaterEqual s.x s.y) = true ↔ s.x.toNat < s.y.toNat := by
    rw [Bool.not_eq_true', ← Bool.not_eq_true, greaterEqual_iff, not_le]
  exact ⟨wordBytes_eq_ofNat 0x35 addr, wordBytes_eq_ofNat 0x36 addr,
    jumpsWhen_of_jumpIf rfl greaterEqual_iff, jumpsWhen_of_jumpIf rfl hl,
    needsItsOperand_of_length rfl, needsItsOperand_of_length rfl⟩

/-! ## The last address (R189) -/

/-- Every row of the opcode table has its own opcode (R84). -/
theorem opcode_injective : Function.Injective Op.opcode :=
  fun a _ h => Option.some.inj ((lookup_opcode a).symm.trans (lookup_eq_some.mpr h.symm))

/-- The fault of a defined opcode other than HLT at 0xFFFF: that of a division by zero before that of the next address
(R243, R245, decisions D7 and D8). -/
def faultAtTop (opcode : Byte) (y : Word) : Exc :=
  if opcode = 0x23 ∧ y = 0 then .divisionByZero
  else if opcode = 0x24 ∧ y = 0 then .moduloByZero
  else .addressOutOfRange

theorem faultAtTop_of_no_trap {opcode : Byte} {y : Word} (hdiv : ¬(opcode = 0x23 ∧ y = 0))
    (hmod : ¬(opcode = 0x24 ∧ y = 0)) : faultAtTop opcode y = .addressOutOfRange := by
  rw [faultAtTop, if_neg hdiv, if_neg hmod]

/-- An instruction of one byte at 0xFFFF has no next address, and DIV and MOD test Y before they need one. -/
theorem exec_oneByte_at_top {i : Instr} {s : State} (hp : s.pointer = 0xFFFF) (hlen : i.op.length = 1)
    (hhlt : i ≠ .hlt) : exec i s = .next (s.faulted (faultAtTop i.op.opcode s.y)) := by
  cases i with
  | hlt => exact absurd rfl hhlt
  | div =>
    by_cases hy : s.y = 0
    · rw [exec_div_of_zero hy, faultAtTop, if_pos ⟨rfl, hy⟩]
    · rw [exec_div_of_ne_zero hy, faultAtTop_of_no_trap (hy ·.2) (hy ·.2)]
      exact writeback_over (following_one_over hp)
  | mod =>
    by_cases hy : s.y = 0
    · rw [exec_mod_of_zero hy, faultAtTop, if_neg (absurd ·.1 (by decide)), if_pos ⟨rfl, hy⟩]
    · rw [exec_mod_of_ne_zero hy, faultAtTop_of_no_trap (hy ·.2) (hy ·.2)]
      exact writeback_over (following_one_over hp)
  | nop | swp | add | sub | mul | scf | ccf =>
    rw [faultAtTop_of_no_trap (absurd ·.1 (by decide)) (absurd ·.1 (by decide))]
    exact writeback_over (following_one_over hp)
  | mov | ldr | str | lod | sto | ldi | jmp | jz | jnz | jc | jnc | jge | jl => cases hlen

/-- A step at 0xFFFF on a defined opcode other than HLT: the operand bytes would lie above the top, or the instruction is
one byte long. -/
theorem commit_at_top {s : State} {op : Op} (hready : s.Ready) (hp : s.pointer = 0xFFFF)
    (hop : lookup (readByte s.mem s.pointer.toNat) = some op) (hhlt : op ≠ .hlt) :
    commit s = .next (s.faulted (faultAtTop op.opcode s.y)) := by
  obtain ⟨hat, hfault⟩ := hready
  have hptop : s.pointer.toNat = 0xFFFF := by rw [hp]; rfl
  have hlen := length_bounds op
  by_cases hone : op.length = 1
  · obtain ⟨i, hi, rfl⟩ := fetch_ok hop (by omega)
    rw [commit_eligible hat hfault, runStep_exec hi]
    exact exec_oneByte_at_top hp hone fun h => hhlt (by rw [h]; rfl)
  · have hdiv : op.opcode ≠ Op.div.opcode := fun h => hone (congrArg Op.length (opcode_injective h))
    have hmod : op.opcode ≠ Op.mod.opcode := fun h => hone (congrArg Op.length (opcode_injective h))
    rw [faultAtTop_of_no_trap (hdiv ·.1) (hmod ·.1)]
    exact commit_of_operandAboveTop ⟨hat, hfault⟩ hop (by omega)

/-- Settles O38: HLT and an undefined opcode need no next address; every other opcode faults as `commit_at_top` says. -/
theorem onlyHltAndUnknownOpcodesAreSafeAtTheTop : Obligations.OnlyHltAndUnknownOpcodesAreSafeAtTheTop := by
  intro s hready hp
  have hbyte : readByte s.mem 0xFFFF = readByte s.mem s.pointer.toNat := by rw [hp]; rfl
  rw [hbyte]
  refine ⟨commit_of_hlt hready, commit_of_undefinedOpcode hready, fun hhlt hdefined => ?_⟩
  obtain ⟨op, _, hop⟩ := exists_opcode_of_not_undefined _ hdefined
  rw [← hop] at hhlt ⊢
  exact commit_at_top hready hp (lookup_eq_some.mpr hop) fun h => hhlt (by rw [h]; rfl)

end Sys2Proof.Machine
end

section
/-! PROOFS. The flag instructions (spec/44_flag_ops.md R200 to R202). SCF and CCF are the end of a step that writes X and C,
X with the value it has. R202 is derived, as the spec derives it, from the statements about SCF, CCF and JC. -/

namespace Sys2Proof.Machine

/-! ## SCF and CCF (R200, R201) -/

/-- Settles O26: each writes C only, SCF with true and CCF with false, whatever C was. -/
theorem scfSetsAndCcfClearsTheCarry : Obligations.ScfSetsAndCcfClearsTheCarry := by
  refine fun s => ⟨rfl, rfl, fun hp => ?_, fun hp => ?_⟩
  · obtain ⟨t, ht, htx, htcarry, hty, htmem, htend⟩ := writeback_xCarry_completes s.x true hp
    obtain ⟨u, hu, hux, hucarry, huy, humem, huend⟩ := writeback_xCarry_completes s.x false hp
    exact ⟨t, u, ht, hu, htcarry, hucarry, htx, hty, hux, huy, htmem, humem, htend, huend⟩
  · have hover : 0xFFFF < s.following 1 := following_one_over hp
    exact ⟨writeback_over hover, writeback_over hover⟩

/-! ## A flag instruction before JC (R202) -/

/-- Settles O27: JC finds the C that SCF or CCF has just written, at P + 1. -/
theorem scfThenJcJumpsAndCcfThenJcDoesNot : Obligations.ScfThenJcJumpsAndCcfThenJcDoesNot := by
  intro addr s hp
  obtain ⟨_, _, hflag, _⟩ := scfSetsAndCcfClearsTheCarry s
  obtain ⟨t, t', ht, ht', hset, hclear, _, _, _, _, _, _, _, ⟨htp', _⟩⟩ := hflag (by omega)
  obtain ⟨_, _, ⟨htaken, _⟩, _⟩ := jcAndJncTestTheCarry addr t.caughtUp
  obtain ⟨_, _, ⟨_, hnotTaken, _⟩, _⟩ := jcAndJncTestTheCarry addr t'.caughtUp
  have hnext : t'.caughtUp.pointer.toNat + 3 = s.pointer.toNat + 4 := by rw [caughtUp_pointer, htp']
  obtain ⟨u, hu, ⟨hutp, _⟩, _⟩ := htaken hset
  obtain ⟨u', hu', ⟨hutp', _⟩, _⟩ := hnotTaken (Bool.eq_false_iff.mp hclear) (hnext.trans_le hp)
  exact ⟨t, u, t', u', ht, hu, BitVec.eq_of_toNat_eq hutp, ht', hu', hutp'.trans hnext⟩

end Sys2Proof.Machine
end

section
/-! PROOFS. The Tagging Scanner (spec/45_tagging_scanner.md R211 to R221). A walk is read off visit by visit: `scanLoop_stops`
and `scanLoop_visit` say where it goes, `readTag_writeTag` and `readTag_tagsAfterVisit` what it marks. -/

namespace Sys2Proof.Machine

/-! ## The tag of a cell after a mark -/

theorem toNat_le_topAddress (w : Word) : w.toNat ≤ Config.topAddress := Nat.le_of_lt_succ w.isLt

/-- A canonical table lists no address above 0xFFFF. -/
theorem sparseRead_above {α : Type} [DecidableEq α] {d : α} {t : List (Nat × α)} {lo a : Nat}
    (h : sparseWf d lo t = true) (ha : Config.topAddress < a) : sparseRead d t a = d := by
  induction t generalizing lo with
  | nil => rfl
  | cons p rest ih =>
    obtain ⟨b, v⟩ := p
    simp only [sparseWf, Bool.and_eq_true, decide_eq_true_eq] at h
    obtain ⟨⟨_, hb, _⟩, hrest⟩ := h
    rw [sparseRead_cons_ne (by omega)]
    exact ih hrest

theorem readTag_writeTag {t : Tags} {a c : Nat} {g : Tag} (h : Tags.wf t = true) :
    readTag (writeTag t a g) c = if c = a then g else readTag t c := by
  split
  · next hc => rw [hc, readTag_writeTag_self h]
  · next hc => exact readTag_writeTag_other hc

theorem writeTag_writeTag {t : Tags} {a : Nat} {g : Tag} (h : Tags.wf t = true) (ha : a ≤ Config.topAddress) :
    writeTag (writeTag t a g) a g = writeTag t a g := by
  have hw : Tags.wf (writeTag t a g) = true := writeTag_wf h ha
  refine sparse_ext (writeTag_wf hw ha) hw fun c => ?_
  change readTag _ c = readTag _ c
  rw [readTag_writeTag hw, readTag_writeTag h]
  split <;> rfl

/-! ## The tags the loop starts from (R212, R213) -/

/-- The tags before the first visit: the cell at P marked and every other one Unknown. -/
abbrev startTags (s : State) : Tags := writeTag [] s.pointer.toNat .instruction

/-- A scan makes at most 100 visits, the first at TP, where no bit is drawn yet (R214). -/
theorem scanTags_eq (choice : Nat → Bool) (s : State) :
    scanTags choice s = scanLoop choice s.mem (99 + 1) s.targetPointer.toNat 0 (startTags s) := rfl

theorem startTags_wf (s : State) : Tags.wf (startTags s) = true := writeTag_wf rfl (toNat_le_topAddress s.pointer)

theorem readTag_startTags (s : State) (c : Nat) :
    readTag (startTags s) c = if c = s.pointer.toNat then .instruction else .unknown :=
  readTag_writeTag rfl

/-- Instruction marks over the tags the loop starts from: the mark at P makes one more such cell. -/
theorem ite_readTag_startTags (s : State) (c : Nat) (marked : Prop) [Decidable marked] :
    (if marked then .instruction else readTag (startTags s) c) =
      if c = s.pointer.toNat ∨ marked then Tag.instruction else .unknown := by
  rw [readTag_startTags, ← ite_or]
  exact if_congr or_comm rfl rfl

/-! ## One visit of the scan loop (R214, R215, R217) -/

theorem scanLoop_stops {choice : Nat → Bool} {m : Memory} {fuel ip j : Nat} {t : Tags}
    (h : StopsScan (readByte m ip)) : scanLoop choice m (fuel + 1) ip j t = writeTag t ip .instruction := by
  rcases h with hhlt | hundefined
  · exact scanLoop_hlt (lookup_eq_some.mpr hhlt.symm)
  · exact scanLoop_undefined (lookup_eq_none.mpr hundefined)

/-- The tags after a visit of `op`, not HLT, at `ip`: those of `scanLoop_visit` and `scanLoop_over`. -/
abbrev tagsAfterVisit (op : Op) (ip : Nat) (t : Tags) : Tags :=
  markOperands (writeTag t ip .instruction) (ip + 1) (operandTags op)

theorem tagsAfterVisit_wf {t : Tags} {ip : Nat} (op : Op) (h : Tags.wf t = true) (hip : ip ≤ Config.topAddress) :
    Tags.wf (tagsAfterVisit op ip t) = true :=
  markOperands_wf (writeTag_wf h hip)

theorem readTag_tagsAfterVisit {t : Tags} {ip c : Nat} (op : Op) (h : Tags.wf t = true)
    (hip : ip ≤ Config.topAddress) : readTag (tagsAfterVisit op ip t) c =
      if ip < c ∧ c < ip + op.length ∧ c ≤ Config.topAddress then (operandTags op).getD (c - ip - 1) .unknown
      else if c = ip then .instruction else readTag t c := by
  have hlen := operandTags_length op
  rw [readTag_markOperands (writeTag_wf h hip), readTag_writeTag h, Nat.sub_sub]
  exact if_congr (by omega) rfl rfl

/-! ## A scan has no effect on a step (R211) -/

theorem agreeButTags_scanWith (choice : Nat → Bool) (s : State) : AgreeButTags s (scanWith choice s) :=
  agreeButTags_retag (scanTags choice s) s.scans s

/-- Settles O44: a scan is a change of the tags, which no step request reads. -/
theorem scanHasNoEffectOnTheStep : Obligations.ScanHasNoEffectOnTheStep := by
  intro choice s
  obtain ⟨t, ht⟩ := commit_next s
  obtain ⟨t', ht', hagree⟩ := agreeButTags_commit (agreeButTags_scanWith choice s) ht
  exact ⟨rfl, t, t', ht, ht', hagree⟩

/-! ## What every scan marks (R221) -/

/-- The first visit marks its cell, so a mark put there before the loop changes nothing. -/
theorem scanLoop_premarked {choice : Nat → Bool} {m : Memory} {fuel ip j : Nat} {t : Tags}
    (h : Tags.wf t = true) (hip : ip ≤ Config.topAddress) :
    scanLoop choice m (fuel + 1) ip j (writeTag t ip .instruction) = scanLoop choice m (fuel + 1) ip j t := by
  rw [scanLoop, scanLoop, writeTag_writeTag h hip]

/-- The loop leaves the cell it starts from marked (R221 b). -/
theorem readTag_scanLoop_start_ne {choice : Nat → Bool} {m : Memory} {fuel ip j : Nat} {t : Tags}
    (h : Tags.wf t = true) (hip : ip ≤ Config.topAddress) :
    readTag (scanLoop choice m (fuel + 1) ip j t) ip ≠ .unknown := by
  rw [← scanLoop_premarked h hip]
  exact readTag_scanLoop_ne (writeTag_wf h hip) hip (by rw [readTag_writeTag_self h]; decide)

/-- Settles O46: no mark is ever taken back, a visit makes at most four, and canonical tags list no cell above 0xFFFF. -/
theorem scanMarksBothPointersAndFewCells : Obligations.ScanMarksBothPointersAndFewCells := by
  intro choice s
  have hwf := startTags_wf s
  have htp := toNat_le_topAddress s.targetPointer
  have hp : readTag (startTags s) s.pointer.toNat ≠ .unknown := by
    rw [readTag_startTags, if_pos rfl]
    decide
  exact ⟨readTag_scanLoop_ne hwf htp hp, readTag_scanLoop_start_ne hwf htp, scanLoop_length,
    fun _ ha => sparseRead_above (scanTags_wf choice s) ha⟩

/-! ## Walks of one and of two visits (R214 to R219) -/

/-- Settles O47: the loop makes one visit, which marks TP, after the mark at P. -/
theorem scanStopsAtHltAndUnknownOpcodes : Obligations.ScanStopsAtHltAndUnknownOpcodes := by
  intro choice s hstop a
  rw [scanWith_tags, scanTags_eq, scanLoop_stops hstop, readTag_writeTag (startTags_wf s),
    ite_readTag_startTags]

/-- The tags of the table's formats are the ones R215 writes out. -/
theorem operandTags_eq (op : Op) : operandTags op = tagsOfOperands op := by cases op <;> rfl

theorem lastByteAtTp_eq (op : Op) (s : State) : lastByteAtTp op s = s.targetPointer.toNat + op.length - 1 := by
  rw [lastByteAtTp, ← operandTags_eq, ← operandTags_length]
  rfl

/-- The seven jumps are the operations of format A. -/
theorem mem_jumps_iff (op : Op) : op ∈ [Op.jmp, .jz, .jnz, .jc, .jnc, .jge, .jl] ↔ op.format = .a := by
  cases op <;> decide

theorem nextVisit_eq (op : Op) (taken : Bool) (s : State) :
    nextVisit op taken s = scanNext s.mem op s.targetPointer.toNat taken := by
  have hlen := length_bounds op
  rw [nextVisit, scanNext, lastByteAtTp_eq, toNat_bytesToWord]
  exact if_congr (and_congr_left' (mem_jumps_iff op)) rfl (by omega)

/-- The tag of every cell after the first visit of a scan, against the tags R215 writes out. -/
theorem readTag_visitAtTp (op : Op) (s : State) (a : Nat) :
    readTag (tagsAfterVisit op s.targetPointer.toNat (startTags s)) a =
      if s.targetPointer.toNat < a ∧ a ≤ lastByteAtTp op s ∧ a ≤ 0xFFFF then
        (tagsOfOperands op).getD (a - s.targetPointer.toNat - 1) .unknown
      else if a = s.pointer.toNat ∨ a = s.targetPointer.toNat then .instruction
      else .unknown := by
  have hlen := length_bounds op
  rw [readTag_tagsAfterVisit op (startTags_wf s) (toNat_le_topAddress s.targetPointer), operandTags_eq,
    ite_readTag_startTags, lastByteAtTp_eq, Config.topAddress]
  exact if_congr (by omega) rfl rfl

/-- Settles O55: the first visit marks as `readTag_visitAtTp` says, and the second, where there is one, marks its cell over
that and stops. -/
theorem scanTagsTheOperandsAndTheNextVisit : Obligations.ScanTagsTheOperandsAndTheNextVisit := by
  intro choice s op hop hhlt hstop a
  rw [scanWith_tags, scanTags_eq, ← readTag_visitAtTp]
  by_cases hlast : lastByteAtTp op s ≤ 0xFFFF
  · rw [scanLoop_visit hop hhlt (lastByteAtTp_eq op s ▸ hlast), ← nextVisit_eq, Config.topAddress]
    by_cases hnext : nextVisit op (choice 0) s ≤ 0xFFFF
    · have hwf := tagsAfterVisit_wf op (startTags_wf s) (toNat_le_topAddress s.targetPointer)
      rw [if_pos hnext, scanLoop_stops (hstop hlast hnext), readTag_writeTag hwf]
      exact if_congr (by simp only [hlast, hnext, true_and]) rfl rfl
    · rw [if_neg hnext, if_neg fun h => hnext h.2.1]
  · rw [scanLoop_over hop hhlt (Nat.lt_of_not_le (lastByteAtTp_eq op s ▸ hlast)), if_neg fun h => hlast h.1]

/-! ## A walk over NOPs (R214, R218) -/

/-- A visit of a NOP goes on at the next byte, up to 0xFFFF. -/
theorem scanLoop_nop {choice : Nat → Bool} {m : Memory} {fuel ip j : Nat} {t : Tags}
    (h : readByte m ip = 0x00) (hip : ip ≤ Config.topAddress) :
    scanLoop choice m (fuel + 1) ip j t =
      if ip + 1 ≤ Config.topAddress then scanLoop choice m fuel (ip + 1) j (writeTag t ip .instruction)
      else writeTag t ip .instruction :=
  scanLoop_visit (op := .nop) (lookup_eq_some.mpr h.symm) (by decide) hip

/-- Over NOPs the loop marks one cell for each visit it may make, up to 0xFFFF, and no other. -/
theorem readTag_scanLoop_nops {choice : Nat → Bool} {m : Memory} {fuel ip j c : Nat} {t : Tags}
    (hwf : Tags.wf t = true) (hip : ip ≤ Config.topAddress)
    (h : ∀ k < fuel, ip + k ≤ Config.topAddress → readByte m (ip + k) = 0x00) :
    readTag (scanLoop choice m fuel ip j t) c =
      if ip ≤ c ∧ c < ip + fuel ∧ c ≤ Config.topAddress then .instruction else readTag t c := by
  induction fuel generalizing ip t with
  | zero => rw [scanLoop, if_neg (by omega)]
  | succ n ih =>
    have hnop : readByte m ip = 0x00 := h 0 n.succ_pos hip
    rw [scanLoop_nop hnop hip]
    by_cases hnext : ip + 1 ≤ Config.topAddress
    · have hrest : ∀ k < n, ip + 1 + k ≤ Config.topAddress → readByte m (ip + 1 + k) = 0x00 := fun k hk => by
        rw [Nat.add_right_comm]
        exact h (k + 1) (Nat.succ_lt_succ hk)
      rw [if_pos hnext, ih (writeTag_wf hwf hip) hnext hrest, readTag_writeTag hwf, ← ite_or]
      exact if_congr (by omega) rfl rfl
    · rw [if_neg hnext, readTag_writeTag hwf]
      exact if_congr (by omega) rfl rfl

/-- Settles O56: the loop may make 100 visits, and it starts at TP with the cell at P marked. -/
theorem scanVisitsAtMostAHundredInstructions : Obligations.ScanVisitsAtMostAHundredInstructions := by
  intro choice s hnops a
  rw [scanWith_tags, scanTags_eq, readTag_scanLoop_nops (startTags_wf s) (toNat_le_topAddress s.targetPointer) hnops,
    ite_readTag_startTags]
  rfl

/-! ## A JMP to itself (R214, R216) -/

/-- A visit of a JMP to itself draws the bit `j`: true comes back, false goes to the byte after the JMP. -/
theorem scanLoop_selfJmp {choice : Nat → Bool} {m : Memory} {fuel ip j : Nat} {t : Tags}
    (hop : lookup (readByte m ip) = some .jmp) (hself : scanNext m .jmp ip true = ip)
    (hip : ip + 3 ≤ Config.topAddress) :
    scanLoop choice m (fuel + 1) ip j t =
      scanLoop choice m fuel (if choice j then ip else ip + 3) (j + 1) (tagsAfterVisit .jmp ip t) := by
  have hlen : Op.jmp.length = 3 := rfl
  have hnext : scanNext m .jmp ip (choice j) = if choice j then ip else ip + 3 := by
    cases choice j with
    | true => exact hself
    | false => rfl
  rw [scanLoop_visit hop (by decide) (by omega), hnext, if_pos (by split <;> omega)]
  rfl

/-- A visit of a JMP leaves the byte after it alone. -/
theorem readTag_afterJmp {t : Tags} {ip : Nat} (h : Tags.wf t = true) (hip : ip ≤ Config.topAddress) :
    readTag (tagsAfterVisit .jmp ip t) (ip + 3) = readTag t (ip + 3) := by
  have hlen : Op.jmp.length = 3 := rfl
  rw [readTag_tagsAfterVisit .jmp h hip, if_neg (by omega), if_neg (by omega)]

/-- From a JMP to itself the loop reaches the byte after it exactly when a bit is false that is not the last visit's. -/
theorem scanLoop_selfJmp_leaves_iff {choice : Nat → Bool} {m : Memory} {fuel ip j : Nat} {t : Tags}
    (hop : lookup (readByte m ip) = some .jmp) (hself : scanNext m .jmp ip true = ip)
    (hip : ip + 3 ≤ Config.topAddress) (hstop : StopsScan (readByte m (ip + 3)))
    (hwf : Tags.wf t = true) (hunmarked : readTag t (ip + 3) ≠ .instruction) :
    readTag (scanLoop choice m (fuel + 1) ip j t) (ip + 3) = .instruction ↔ ∃ k < fuel, choice (j + k) = false := by
  have hle : ip ≤ Config.topAddress := by omega
  induction fuel generalizing j t with
  | zero =>
    rw [scanLoop_selfJmp hop hself hip, scanLoop, readTag_afterJmp hwf hle]
    exact iff_of_false hunmarked fun ⟨k, hk, _⟩ => absurd hk k.not_lt_zero
  | succ n ih =>
    have hvisit := tagsAfterVisit_wf .jmp hwf hle
    rw [← readTag_afterJmp hwf hle] at hunmarked
    rw [scanLoop_selfJmp hop hself hip, Nat.exists_lt_succ_left, Nat.add_zero]
    cases hbit : choice j with
    | true =>
      simpa [Nat.add_right_comm, Nat.add_assoc] using ih (j := j + 1) hvisit hunmarked
    | false =>
      rw [if_neg Bool.false_ne_true, scanLoop_stops hstop, readTag_writeTag_self hvisit]
      exact iff_of_true rfl (.inl rfl)

/-- What the scanner meets at a JMP to its own address. -/
theorem selfJmp_of_holds {s : State} {a : Word} (h : Holds s a (.jmp a)) :
    lookup (readByte s.mem a.toNat) = some .jmp ∧ scanNext s.mem .jmp a.toNat true = a.toNat := by
  obtain ⟨_, hbytes⟩ := h
  have hlen : (encode (.jmp a)).length = 3 := rfl
  have hopcode : readByte s.mem a.toNat = 0x30 := hbytes 0 (by omega)
  have hhi : readByte s.mem (a.toNat + 1) = hiByte a := hbytes 1 (by omega)
  have hlo : readByte s.mem (a.toNat + 2) = loByte a := hbytes 2 (by omega)
  refine ⟨lookup_eq_some.mpr hopcode.symm, ?_⟩
  rw [scanNext, if_pos ⟨rfl, rfl⟩, hhi, hlo, bytesToWord_hi_lo]

/-- Settles O57: the scan starts at the JMP with bit 0 and 100 visits to make. -/
theorem scanDrawsAFreshBitAtEachJump : Obligations.ScanDrawsAFreshBitAtEachJump := by
  intro choice s hjmp hfits hp hstop
  obtain ⟨hop, hself⟩ := selfJmp_of_holds hjmp
  have hunmarked : readTag (startTags s) (s.targetPointer.toNat + 3) ≠ .instruction := by
    rw [readTag_startTags, if_neg hp.symm]
    decide
  rw [scanWith_tags, scanTags_eq]
  simpa only [Nat.zero_add] using
    scanLoop_selfJmp_leaves_iff (choice := choice) (fuel := 99) (j := 0) hop hself hfits hstop (startTags_wf s) hunmarked

end Sys2Proof.Machine
end

section
/-! PROOFS. Reset and the environment's requests (spec/70_reset_and_hazards.md): what each request writes. A refused reset
is `resetWith_over`, and the byte of an edit is read back by the laws of `writeByte`. -/

namespace Sys2Proof.Machine

/-- A source that does not assemble gives the empty image (R282, decision D22). -/
theorem imageOf_of_assemble_error {source : Text} {e : AsmError} (h : assemble source = .error e) :
    imageOf (some source) = [] := by
  rw [imageOf, h]

/-- A catch-up when the pointer is at TP already changes nothing (R289). -/
theorem applyRequest_catchUp_of_pointer_eq {s : State} (h : s.pointer = s.targetPointer) :
    applyRequest s .catchUp = s :=
  congrArg (fun p => { s with pointer := p }) h.symm

/-- Settles O49: reset refuses the image by its length, and a source without assembled bytes gives the empty image. -/
theorem oversizeImageIsRefused : Obligations.OversizeImageIsRefused :=
  ⟨fun _ _ hlong => resetWith_over hlong, rfl, fun _ _ => imageOf_of_assemble_error⟩

/-- Settles O50: an edit of a cell is a `writeByte`, and each other request is the update of the one field it names. -/
theorem requestsWriteWhatTheyName : Obligations.RequestsWriteWhatTheyName := by
  intro s a v b hmem
  have hedit : readByte (writeByte s.mem a.toNat b) a.toNat = b ∧
      ∀ c, c ≠ a.toNat → readByte (writeByte s.mem a.toNat b) c = readByte s.mem c :=
    ⟨readByte_writeByte_self hmem, fun _ => readByte_writeByte_other⟩
  exact ⟨⟨_, rfl, hedit⟩, rfl, rfl, rfl, rfl, applyRequest_catchUp_of_pointer_eq⟩

end Sys2Proof.Machine
end

section
/-! PROOFS. The tick as the model's step (log entries 1 and 5): it answers a next state whatever its input, and the
tick nothing is scheduled for makes a step request of a ready state. -/

namespace Sys2Proof.Machine

/-- A tick ends with a step request, which answers a next state, or without one (R284). -/
theorem tick_next (s : State) (inp : TickInput) : ∃ t, tick s inp = .next t := by
  cases hc : inp.commit with
  | true =>
    rw [tick_commit hc]
    exact commit_next _
  | false => exact ⟨_, tick_idle hc⟩

/-- Settles O40: a step is a tick. -/
theorem everyStepAnswersANextState : Obligations.EveryStepAnswersANextState := by
  intro s
  rw [step_eq_tick]
  exact tick_next _ _

/-- Every step request has an outcome (R11, R122). -/
theorem commit_outcome_ne_none {s t : State} (h : commit s = .next t) : t.outcome ≠ none := by
  rcases commit_answers h with ⟨o, _, rfl⟩ | ⟨_, rfl⟩ | ⟨_, _, _, _, _, rfl⟩
  · exact Option.some_ne_none _
  · exact Option.some_ne_none _
  · exact Option.some_ne_none _

/-- Settles O41: after the catch-up and the scan the pointer stands at the old TP and the state is ready, so the step
request is no NoStep, and it does not move the pointer. -/
theorem unscheduledTickTakesAStep : Obligations.UnscheduledTickTakesAStep := by
  intro s hschedule hfault
  have hready : (scan s.caughtUp).Ready := ⟨rfl, hfault⟩
  obtain ⟨t, ht⟩ := commit_next (scan s.caughtUp)
  obtain ⟨hpointer, _⟩ := engineNeverWritesPointerOrTags _ _ ht
  refine ⟨t, (step_unscheduled hschedule).trans ht, ?_, commit_outcome_ne_none ht, commit_outcome_ne_noStep hready ht⟩
  rw [hpointer, scan_pointer, caughtUp_pointer]

end Sys2Proof.Machine
end
